-- ==== Sys2Proof/Word.lean ====
section
/-! DEFINITION. The word types of the command port. -/

namespace Sys2Proof

/-- A command word or a response word: 32 bits, bit 0 the least significant (R9, R70, R71, R73). -/
abbrev Word := BitVec 32

/-- One byte of a word that a platform has serialised (R52). -/
abbrev Byte := BitVec 8

end Sys2Proof
end

