-- ==== Sys2Proof/Syntax.lean ====
section
/-! DEFINITION. The 28 commands of ECMD-1 (R77), one constructor per row of spec/opcode_table.json.
Operands are the unsigned values of the 8-bit fields (R72); kinds, selectors and targets are the named
values of R79, so a reserved one cannot be written. -/

namespace Sys2Proof

/-- The kinds of ROT (R79): `ascending`, `descending`, the staging buffer as a permutation. -/
inductive PermKind where
  | asc | dsc | stg
  deriving DecidableEq, Repr

/-- The kinds of RFL and PLB (R79): `empty`, `mirror`, `flipped`, the staging buffer as a pairing. -/
inductive PairKind where
  | emp | mir | flp | stg
  deriving DecidableEq, Repr

/-- The selectors of INF (R79). -/
inductive InfSel where
  | n | nrot | rmax
  deriving DecidableEq, Repr

/-- The targets of ISP (R79): the plugboard or the reflector. -/
inductive Target where
  | pb | rf
  deriving DecidableEq, Repr

/-- A command (R77), operands in the order `A`, `B`, `C`. -/
inductive Instr where
  | new
  | inf (sel : InfSel)
  | stc
  | stg (i d : Nat)
  | pfw (k i : Nat)
  | pin (k i : Nat)
  | con (a b : Nat)
  | dis (a : Nat)
  | isp (t : Target) (v : Nat)
  | plg (v : Nat)
  | rfe (v : Nat)
  | plb (kind : PairKind)
  | ren (k v : Nat)
  | rde (k v : Nat)
  | adv (k : Nat)
  | spr (k p : Nat)
  | sen (v : Nat)
  | sde (v : Nat)
  | stp
  | pos (k : Nat)
  | plw (k p : Nat)
  | sps (len : Nat)
  | rsp
  | rot (kind : PermKind)
  | rflct (kind : PairKind)
  | enc (v : Nat)
  | dec (v : Nat)
  | rst
  deriving DecidableEq, Repr

end Sys2Proof
end

