-- ==== Sys2Proof/WellFormed.lean ====
section
/-! DEFINITION. Which terms of `Instr` are commands: every operand is the value of one 8-bit field (R72). -/

namespace Sys2Proof

/-- An operand value that an 8-bit field can hold, `0 .. 255` (R72). -/
def operandOk (v : Nat) : Bool := decide (v < 256)

/-- Every operand of the command is an 8-bit value (R72). Kinds, selectors and targets need no check. -/
def Instr.wellFormed : Instr → Bool
  | .new => true
  | .inf _ => true
  | .stc => true
  | .stg i d => operandOk i && operandOk d
  | .pfw k i => operandOk k && operandOk i
  | .pin k i => operandOk k && operandOk i
  | .con a b => operandOk a && operandOk b
  | .dis a => operandOk a
  | .isp _ v => operandOk v
  | .plg v => operandOk v
  | .rfe v => operandOk v
  | .plb _ => true
  | .ren k v => operandOk k && operandOk v
  | .rde k v => operandOk k && operandOk v
  | .adv k => operandOk k
  | .spr k p => operandOk k && operandOk p
  | .sen v => operandOk v
  | .sde v => operandOk v
  | .stp => true
  | .pos k => operandOk k
  | .plw k p => operandOk k && operandOk p
  | .sps len => operandOk len
  | .rsp => true
  | .rot _ => true
  | .rflct _ => true
  | .enc v => operandOk v
  | .dec v => operandOk v
  | .rst => true

/-- `wellFormed` as a proposition. -/
abbrev Instr.WellFormed (i : Instr) : Prop := i.wellFormed = true

end Sys2Proof
end

