-- ==== Sys2Proof/Decode.lean ====
section
/-! DEFINITION. The decoder, total on all words and rejecting by name (R71, R77 to R81), and after it the
encoder, written from the same tables. -/

namespace Sys2Proof

/-! ### Fields of a command word (R71) -/

/-- `cmd[31:24]`, the opcode. -/
def fieldOpc (w : Word) : Nat := (w.extractLsb' 24 8).toNat

/-- `cmd[23:16]`, field `A`. -/
def fieldA (w : Word) : Nat := (w.extractLsb' 16 8).toNat

/-- `cmd[15:8]`, field `B`. -/
def fieldB (w : Word) : Nat := (w.extractLsb' 8 8).toNat

/-- `cmd[7:0]`, field `C`. -/
def fieldC (w : Word) : Nat := (w.extractLsb' 0 8).toNat

/-- Why a word is no command. All three raise IllegalCommandError with the opcode as `info`. -/
inductive Reject where
  /-- The opcode is not one of R77 (R80). -/
  | reservedOpcode
  /-- A field the format does not use is not zero (R78). -/
  | mustBeZero
  /-- A kind, selector or target outside R79. -/
  | reservedValue
  deriving DecidableEq, Repr

/-! ### Values of R79 -/

/-- The selector of INF (R79). -/
def decodeInfSel : Nat → Option InfSel
  | 0 => some .n
  | 1 => some .nrot
  | 2 => some .rmax
  | _ => none

/-- The target of ISP (R79). -/
def decodeTarget : Nat → Option Target
  | 0 => some .pb
  | 1 => some .rf
  | _ => none

/-- The kind of ROT (R79). -/
def decodePermKind : Nat → Option PermKind
  | 0 => some .asc
  | 1 => some .dsc
  | 2 => some .stg
  | _ => none

/-- The kind of RFL and PLB (R79). -/
def decodePairKind : Nat → Option PairKind
  | 0 => some .emp
  | 1 => some .mir
  | 2 => some .flp
  | 3 => some .stg
  | _ => none

/-! ### The five formats (R71): the fields a format does not use must be zero (R78) -/

/-- A named value of R79, or the rejection. -/
def orReserved (r : Option Instr) : Except Reject Instr :=
  match r with
  | some i => .ok i
  | none => .error .reservedValue

/-- Format Z: no operand; `A`, `B`, `C` must be zero. -/
def formatZ (w : Word) (i : Instr) : Except Reject Instr :=
  if fieldA w = 0 ∧ fieldB w = 0 ∧ fieldC w = 0 then .ok i else .error .mustBeZero

/-- Format C: operand `C`; `A`, `B` must be zero. -/
def formatC (w : Word) (f : Nat → Option Instr) : Except Reject Instr :=
  if fieldA w = 0 ∧ fieldB w = 0 then orReserved (f (fieldC w)) else .error .mustBeZero

/-- Format A: operand `A`; `B`, `C` must be zero. -/
def formatA (w : Word) (f : Nat → Instr) : Except Reject Instr :=
  if fieldB w = 0 ∧ fieldC w = 0 then .ok (f (fieldA w)) else .error .mustBeZero

/-- Format AC: operands `A` and `C`; `B` must be zero. -/
def formatAC (w : Word) (f : Nat → Nat → Option Instr) : Except Reject Instr :=
  if fieldB w = 0 then orReserved (f (fieldA w) (fieldC w)) else .error .mustBeZero

/-- Format BC: operands `B` and `C`; `A` must be zero. -/
def formatBC (w : Word) (f : Nat → Nat → Instr) : Except Reject Instr :=
  if fieldA w = 0 then .ok (f (fieldB w) (fieldC w)) else .error .mustBeZero

/-- The total decoder (R81): the opcode map of R77 over the formats of R71. -/
def decode (w : Word) : Except Reject Instr :=
  match fieldOpc w with
  | 0x01 => formatZ w .new
  | 0x02 => formatC w fun c => (decodeInfSel c).map .inf
  | 0x10 => formatZ w .stc
  | 0x11 => formatBC w .stg
  | 0x12 => formatAC w fun a c => some (.pfw a c)
  | 0x13 => formatAC w fun a c => some (.pin a c)
  | 0x20 => formatBC w .con
  | 0x21 => formatC w fun c => some (.dis c)
  | 0x22 => formatAC w fun a c => (decodeTarget a).map fun t => .isp t c
  | 0x23 => formatC w fun c => some (.plg c)
  | 0x24 => formatC w fun c => some (.rfe c)
  | 0x25 => formatC w fun c => (decodePairKind c).map .plb
  | 0x30 => formatAC w fun a c => some (.ren a c)
  | 0x31 => formatAC w fun a c => some (.rde a c)
  | 0x32 => formatA w .adv
  | 0x33 => formatAC w fun a c => some (.spr a c)
  | 0x40 => formatC w fun c => some (.sen c)
  | 0x41 => formatC w fun c => some (.sde c)
  | 0x42 => formatZ w .stp
  | 0x43 => formatA w .pos
  | 0x44 => formatAC w fun a c => some (.plw a c)
  | 0x45 => formatC w fun c => some (.sps c)
  | 0x46 => formatZ w .rsp
  | 0x50 => formatC w fun c => (decodePermKind c).map .rot
  | 0x51 => formatC w fun c => (decodePairKind c).map .rflct
  | 0x52 => formatC w fun c => some (.enc c)
  | 0x53 => formatC w fun c => some (.dec c)
  | 0x54 => formatZ w .rst
  | _ => .error .reservedOpcode

/-! ### The encoder -/

/-- A command word from its four fields (R71). -/
def packWord (opc a b c : Nat) : Word :=
  (BitVec.ofNat 8 opc ++ BitVec.ofNat 8 a ++ BitVec.ofNat 8 b ++ BitVec.ofNat 8 c : BitVec (8 + 8 + 8 + 8))

/-- The number of a selector of INF (R79). -/
def encodeInfSel : InfSel → Nat
  | .n => 0
  | .nrot => 1
  | .rmax => 2

/-- The number of a target of ISP (R79). -/
def encodeTarget : Target → Nat
  | .pb => 0
  | .rf => 1

/-- The number of a kind of ROT (R79). -/
def encodePermKind : PermKind → Nat
  | .asc => 0
  | .dsc => 1
  | .stg => 2

/-- The number of a kind of RFL or PLB (R79). -/
def encodePairKind : PairKind → Nat
  | .emp => 0
  | .mir => 1
  | .flp => 2
  | .stg => 3

/-- The word of a well-formed command (R71, R77). -/
def encode : Instr → Word
  | .new => packWord 0x01 0 0 0
  | .inf sel => packWord 0x02 0 0 (encodeInfSel sel)
  | .stc => packWord 0x10 0 0 0
  | .stg i d => packWord 0x11 0 i d
  | .pfw k i => packWord 0x12 k 0 i
  | .pin k i => packWord 0x13 k 0 i
  | .con a b => packWord 0x20 0 a b
  | .dis a => packWord 0x21 0 0 a
  | .isp t v => packWord 0x22 (encodeTarget t) 0 v
  | .plg v => packWord 0x23 0 0 v
  | .rfe v => packWord 0x24 0 0 v
  | .plb kind => packWord 0x25 0 0 (encodePairKind kind)
  | .ren k v => packWord 0x30 k 0 v
  | .rde k v => packWord 0x31 k 0 v
  | .adv k => packWord 0x32 k 0 0
  | .spr k p => packWord 0x33 k 0 p
  | .sen v => packWord 0x40 0 0 v
  | .sde v => packWord 0x41 0 0 v
  | .stp => packWord 0x42 0 0 0
  | .pos k => packWord 0x43 k 0 0
  | .plw k p => packWord 0x44 k 0 p
  | .sps len => packWord 0x45 0 0 len
  | .rsp => packWord 0x46 0 0 0
  | .rot kind => packWord 0x50 0 0 (encodePermKind kind)
  | .rflct kind => packWord 0x51 0 0 (encodePairKind kind)
  | .enc v => packWord 0x52 0 0 v
  | .dec v => packWord 0x53 0 0 v
  | .rst => packWord 0x54 0 0 0

/-! ### Words as the host's table numbers them, and as a platform serialises them -/

/-- The first `nbits` bits of a command word, numbered as the opcode table numbers them, the rest 0. -/
def wordOfTable (nbits w : Nat) : Word := BitVec.ofNat 32 (w % 2 ^ nbits)

/-- What the decoder reads from a word given by the opcode table's bits. -/
def decodeTableWord (nbits w : Nat) : Option Instr :=
  match decode (wordOfTable nbits w) with
  | .ok i => some i
  | .error _ => none

/-- A word as a platform serialises it, least significant byte first (R52). The engine never sees it. -/
def bytesOfWord (w : Word) : List Byte :=
  [w.extractLsb' 0 8, w.extractLsb' 8 8, w.extractLsb' 16 8, w.extractLsb' 24 8]

/-- The word a platform hands over for four serialised bytes (R52). -/
def wordOfBytes : List Byte → Option Word
  | [b0, b1, b2, b3] => some (b3 ++ b2 ++ b1 ++ b0 : BitVec (8 + 8 + 8 + 8))
  | _ => none

end Sys2Proof
end

