-- ==== Sys2Proof/Config.lean ====
section
/-! DEFINITION. What an instance of the engine fixes for its whole life: its two parameters (R6, R31).
The spec leaves no value open (R252), so there is no free value here. -/

namespace Sys2Proof

/-- The two elaboration-time parameters of an instance (R6). -/
structure Instance where
  /-- `N`, the alphabet size: every table has `N` entries, all reductions are modulo `N`. -/
  n : Nat
  /-- `RMAX`, the number of rotor slots. -/
  rmax : Nat
  deriving DecidableEq, Repr

/-- The parameters an instance may have: `1 ≤ N ≤ 256`, `1 ≤ RMAX ≤ 255` (R6). -/
abbrev Instance.Valid (c : Instance) : Prop :=
  1 ≤ c.n ∧ c.n ≤ 256 ∧ 1 ≤ c.rmax ∧ c.rmax ≤ 255

/-- `IW = max(1, ceil(log2 N))`, the number of bits that hold one index (R6). -/
def Instance.indexWidth (c : Instance) : Nat := Nat.log2 (c.n - 1) + 1

/-- The reference configuration of the spec's examples, `N = 26`, `RMAX = 4` (R7).
DESIGN CHOICE (log entry 1): `State.reset` is the reset of this instance. -/
def Config.reference : Instance := { n := 26, rmax := 4 }

end Sys2Proof
end

