-- ==== Sys2Proof/Machine/State.lean ====
section
/-! DEFINITION. The state of the engine and of its command port, as plain data, and the reset state. -/

namespace Sys2Proof.Machine

/-- Reasons for which the machine stops with a fault: NONE. Every fault of the spec is a response after which
the engine goes on (R223, R234, R235), that is, a next state; "No behaviour of this engine needs the treatment
`stuck`" (93_implementation_defined). The type has no constructor: no step can answer `.fault`. Safe (log entry 7). -/
inductive Fault where
  deriving DecidableEq, Repr

/-- Reasons for which a step has no meaning. -/
inductive Refusal where
  /-- An arm of `exec` whose instruction has no meaning yet raises it; no arm does now. Safe: the model stops
  where the hardware goes on. -/
  | notModelled (mnemonic : String)
  /-- `step` raises it in a state whose parameters are outside R6 (`N = 0` among them): "no such instance"
  (R6, U18; log entry 3). Safe: no instance of the hardware has such a state. -/
  | noSuchInstance
  deriving DecidableEq, Repr

/-- One installed rotor slot (R20, R24, R25). -/
structure Rotor where
  /-- `fwd[k]`, the forward table (R24). -/
  fwd : List Nat
  /-- `inv[k]`, the precomputed inverse table (R25). -/
  inv : List Nat
  /-- `pos[k]`, the position (R20). -/
  pos : Nat
  deriving DecidableEq, Repr

/-- A pairing set: the plugboard (R26) or the reflector (R27). -/
structure PairSet where
  /-- `pb_paired` or `rf_paired`. -/
  paired : List Bool
  /-- `pb_partner` or `rf_partner`, 0 where unpaired. -/
  partner : List Nat
  deriving DecidableEq, Repr

/-- The staging buffer (R28). -/
structure Staging where
  /-- `stg_w`: the entry has been written since the last clear. -/
  written : List Bool
  /-- `stg_d`, 0 where not written. -/
  data : List Nat
  deriving DecidableEq, Repr

/-- The architectural state (10_state, section 1): everything a command can read or write. -/
structure Engine where
  /-- `N` and `RMAX` (R31). -/
  inst : Instance
  /-- The installed slots `0 .. NROT-1` in slot order; a slot that is not installed has no content (R32),
  so `NROT` (R30) is the length of this list. -/
  rotors : List Rotor
  /-- `pb_paired`, `pb_partner` (R26). -/
  plugboard : PairSet
  /-- `rf_paired`, `rf_partner` (R27). -/
  reflector : PairSet
  /-- `stg_w`, `stg_d` (R28). -/
  staging : Staging
  /-- `pl` (R29). -/
  posList : List Nat
  deriving DecidableEq, Repr

/-- What the host does at the port (R269). -/
inductive HostEvent where
  /-- The host presents a command word and takes the response (R70). -/
  | command (w : Word)
  /-- The reset event, between commands (R250). -/
  | reset
  /-- The reset event while the command `w` is being executed: the command is abandoned (R250, U27;
  log entry 6). -/
  | resetDuring (w : Word)
  deriving DecidableEq, Repr

/-- The command port with the host behind it. DESIGN CHOICE (log entry 2): the model's own fields, no part of
the architectural state (R33, R34). -/
structure Port where
  /-- What the host has yet to do, in order; empty when it has stopped (R269). -/
  pending : List HostEvent
  /-- The response words the host has been given, newest first. -/
  responses : List Word
  deriving DecidableEq, Repr

/-- The engine and its port. -/
structure State where
  engine : Engine
  port : Port
  deriving DecidableEq, Repr

/-- The empty pairing set on `n` indices (R37). -/
def PairSet.empty (n : Nat) : PairSet :=
  { paired := List.replicate n false, partner := List.replicate n 0 }

/-- The clear staging buffer of `n` entries (R37). -/
def Staging.clear (n : Nat) : Staging :=
  { written := List.replicate n false, data := List.replicate n 0 }

/-- The architectural state of an instance after reset (R37). -/
def Engine.reset (c : Instance) : Engine :=
  { inst := c
    rotors := []
    plugboard := PairSet.empty c.n
    reflector := PairSet.empty c.n
    staging := Staging.clear c.n
    posList := List.replicate c.rmax 0 }

/-- The machine of an instance right after reset: idle, no command presented yet (R37, R251). -/
def State.resetOf (c : Instance) : State :=
  { engine := Engine.reset c, port := { pending := [], responses := [] } }

/-- The machine right after reset. DESIGN CHOICE (log entry 1): the reference instance of R7. -/
def State.reset : State := State.resetOf Config.reference

end Sys2Proof.Machine
end

