-- ==== Sys2Proof/Machine/Flags.lean ====
section
/-! DEFINITION. The status a command reports. The engine has no flags (R33); what stands in their place is the
response word with its F bit, its CODE and its DATA (R73 to R75), and the fault codes (R220). -/

namespace Sys2Proof.Machine

/-- The faults of R220. `unknownSymbol` is the host's: no command raises it (R224). -/
inductive FaultKind where
  | unknownSymbol | indexOutOfRange | conflict | notFound | sizeMismatch | illegalCommand | invariant | slot
  deriving DecidableEq, Repr

/-- The fault code (R220). -/
def faultCode : FaultKind → Nat
  | .unknownSymbol => 1
  | .indexOutOfRange => 2
  | .conflict => 3
  | .notFound => 4
  | .sizeMismatch => 5
  | .illegalCommand => 6
  | .invariant => 7
  | .slot => 8

/-- A response word from F, CODE and DATA, all other bits 0 (R73). -/
def packResponse (f : BitVec 1) (code : Nat) (data : Nat) : Word :=
  (f ++ 0#3 ++ BitVec.ofNat 4 code ++ 0#8 ++ BitVec.ofNat 16 data : BitVec (1 + 3 + 4 + 8 + 16))

/-- The success response `F = 0`, `CODE = 0`, `DATA = zext_16(d)` (R74). -/
def successResponse (d : Nat) : Word := packResponse 0#1 0 d

/-- The fault response `F = 1`, `CODE` of the fault, `DATA = zext_16(info)` (R75). -/
def faultResponse (f : FaultKind) (info : Nat) : Word := packResponse 1#1 (faultCode f) info

/-- `rsp[31]`, set when the command faulted (R73). -/
def responseFault (r : Word) : Bool := r.getLsbD 31

/-- `rsp[27:24]`, the fault code (R73). -/
def responseCode (r : Word) : Nat := (r.extractLsb' 24 4).toNat

/-- `rsp[15:0]`, the result or the fault information (R73). -/
def responseData (r : Word) : Nat := (r.extractLsb' 0 16).toNat

end Sys2Proof.Machine
end

