-- ==== Sys2Proof/Machine/Ops.lean ====
section
/-! DEFINITION. The named operations over tables, slots and the port: the only readers and writers of State. -/

namespace Sys2Proof.Machine

/-! ### Tables (R50, R51): one entry an access -/

/-- Entry `i` of a table of numbers. An entry the list does not hold reads as 0, the reset content (R37);
only in states outside `Engine.Inv` is there one below `N` (log entry 4). -/
def readEntry (t : List Nat) (i : Nat) : Nat := t.getD i 0

/-- Entry `i` of a table of bits; an entry the list does not hold reads as 0 (log entry 4). -/
def readBit (t : List Bool) (i : Nat) : Bool := t.getD i false

/-! ### The engine's registers -/

/-- `N` (R31). -/
def Engine.n (e : Engine) : Nat := e.inst.n

/-- `RMAX` (R31). -/
def Engine.rmax (e : Engine) : Nat := e.inst.rmax

/-- `NROT`, the number of installed rotors (R30). -/
def Engine.nrot (e : Engine) : Nat := e.rotors.length

/-- Slot `k`; the commands read installed slots only (R32). -/
def Engine.slot (e : Engine) (k : Nat) : Rotor := e.rotors.getD k { fwd := [], inv := [], pos := 0 }

/-- `pos[k]` (R20). -/
def Engine.pos (e : Engine) (k : Nat) : Nat := (e.slot k).pos

/-- `fwd[k][i]` (R24). -/
def Engine.fwd (e : Engine) (k i : Nat) : Nat := readEntry (e.slot k).fwd i

/-- `inv[k][i]` (R25). -/
def Engine.inv (e : Engine) (k i : Nat) : Nat := readEntry (e.slot k).inv i

/-- `pl[k]` (R29). -/
def Engine.pl (e : Engine) (k : Nat) : Nat := readEntry e.posList k

/-- The position vector `pos[0 .. NROT-1]` (R23). -/
def Engine.positions (e : Engine) : List Nat := e.rotors.map (·.pos)

/-- A rotor at another position: the tables stay (R103). -/
def Rotor.withPos (r : Rotor) (p : Nat) : Rotor := { r with pos := p }

/-- `pos[k] <- p`; no other slot changes (R22). -/
def Engine.setPos (e : Engine) (k p : Nat) : Engine :=
  { e with rotors := e.rotors.modify k (·.withPos p) }

/-- `pos[k] <- Q[k]` for every installed `k`, all together (R58). -/
def Engine.setPositions (e : Engine) (q : List Nat) : Engine :=
  { e with rotors := List.zipWith Rotor.withPos e.rotors q }

/-- `pos[k] <- 0` for every installed `k`: the effect of RSP and of RST (R182, R202). -/
def Engine.zeroPositions (e : Engine) : Engine :=
  { e with rotors := e.rotors.map (·.withPos 0) }

/-! ### Pairing sets (R26, R27) -/

/-- `Paired(S, v)` (R120). -/
def PairSet.isPaired (s : PairSet) (v : Nat) : Bool := readBit s.paired v

/-- `Partner(S, v)` (R120). -/
def PairSet.partnerOf (s : PairSet) (v : Nat) : Nat := readEntry s.partner v

/-- The four writes of CON: the pair `a`, `b` in both directions (R126). -/
def PairSet.connect (s : PairSet) (a b : Nat) : PairSet :=
  { paired := (s.paired.set a true).set b true
    partner := (s.partner.set a b).set b a }

/-- The writes of DIS: the pair of `a` removed, or nothing when `a` is unpaired (R127). -/
def PairSet.disconnect (s : PairSet) (a : Nat) : PairSet :=
  if s.isPaired a then
    { paired := (s.paired.set a false).set (s.partnerOf a) false
      partner := (s.partner.set a 0).set (s.partnerOf a) 0 }
  else s

/-- The policy-free view of ISP: `256 + partner` when paired, else 0 (R128). -/
def PairSet.query (s : PairSet) (v : Nat) : Nat :=
  if s.isPaired v then 256 + s.partnerOf v else 0

/-! ### Staging buffer (R28) -/

/-- `stg_w[i]`. -/
def Staging.isWritten (g : Staging) (i : Nat) : Bool := readBit g.written i

/-- `stg_d[i]`. -/
def Staging.entry (g : Staging) (i : Nat) : Nat := readEntry g.data i

/-- The two writes of STG (R107). -/
def Staging.write (g : Staging) (i d : Nat) : Staging :=
  { written := g.written.set i true, data := g.data.set i d }

/-! ### The end of a command: success, fault, and the port -/

/-- The host is given a response word (R70). -/
def State.reply (s : State) (r : Word) : State :=
  { s with port := { s.port with responses := r :: s.port.responses } }

/-- The architectural state after a command. -/
def State.withEngine (s : State) (e : Engine) : State := { s with engine := e }

/-- `return d`: the command's writes take effect together and the success response is given (R11, R74). -/
def State.succeed (s : State) (e : Engine) (d : Nat) : Host.Outcome State Fault Refusal :=
  .next ((s.withEngine e).reply (successResponse d))

/-- `raise E(info)`, the one fault entry of the engine: nothing is written, the fault response is given and the
engine is ready for the next command (R11, R223, R234, R235). There is no return from it to model: "There is no
return instruction because nothing was entered" (R235). -/
def State.raise (s : State) (f : FaultKind) (info : Nat) : Host.Outcome State Fault Refusal :=
  .next (s.reply (faultResponse f info))

/-- The decoder's fault: IllegalCommandError with `info = OPC` (R78, R79, R80). -/
def State.illegal (s : State) (opc : Nat) : Host.Outcome State Fault Refusal :=
  s.raise .illegalCommand opc

/-- The host's next event has been presented: the rest is still to come (R61). -/
def State.withPending (s : State) (rest : List HostEvent) : State :=
  { s with port := { s.port with pending := rest } }

/-- The reset event: the whole architectural state takes its reset values, no response is given (R250). -/
def State.hardwareReset (s : State) : State := s.withEngine (Engine.reset s.engine.inst)

/-- The host presents the command word `w` before anything else it has yet to do. -/
def State.present (s : State) (w : Word) : State := s.withPending (.command w :: s.port.pending)

end Sys2Proof.Machine
end

