-- ==== Sys2Proof/Machine/Operands.lean ====
section
/-! DEFINITION. The operand roles of R72: what each is compared with, and the fault when it is not legal.
Each takes what the command does next, so that a command reads as its pseudocode does, in the order of R231. -/

namespace Sys2Proof.Machine

/-- Role "installed slot": `k` in `0 .. NROT-1`, else SlotError(k) (R72, R229). -/
def State.needSlot (s : State) (k : Nat) (next : Host.Outcome State Fault Refusal) :
    Host.Outcome State Fault Refusal :=
  if k ≥ s.engine.nrot then s.raise .slot k else next

/-- Role "list slot": `k` in `0 .. RMAX-1`, else SlotError(k) (R72, R180). -/
def State.needListSlot (s : State) (k : Nat) (next : Host.Outcome State Fault Refusal) :
    Host.Outcome State Fault Refusal :=
  if k ≥ s.engine.rmax then s.raise .slot k else next

/-- Role "index": `v` in `0 .. N-1`, else IndexOutOfRangeError(v) (R72, R225). -/
def State.needIndex (s : State) (v : Nat) (next : Host.Outcome State Fault Refusal) :
    Host.Outcome State Fault Refusal :=
  if v ≥ s.engine.n then s.raise .indexOutOfRange v else next

/-- Role "list length": equal to `NROT`, else SizeMismatchError(NROT) (R72, R228). -/
def State.needLength (s : State) (len : Nat) (next : Host.Outcome State Fault Refusal) :
    Host.Outcome State Fault Refusal :=
  if len ≠ s.engine.nrot then s.raise .sizeMismatch s.engine.nrot else next

/-- An index to be connected is unpaired in the plugboard, else ConflictError(v) (R126, R226). -/
def State.needUnpaired (s : State) (v : Nat) (next : Host.Outcome State Fault Refusal) :
    Host.Outcome State Fault Refusal :=
  if s.engine.plugboard.isPaired v then s.raise .conflict v else next

/-- The index presented to the reflector has a partner, else NotFoundError(v) (R132, R200, R227). -/
def State.needReflected (s : State) (v : Nat) (next : Host.Outcome State Fault Refusal) :
    Host.Outcome State Fault Refusal :=
  if s.engine.reflector.isPaired v then next else s.raise .notFound v

/-- Role "raw position": every value is legal and used modulo `N` (R72, R157, R181). -/
def Engine.rawPosition (e : Engine) (p : Nat) : Nat := p % e.n

end Sys2Proof.Machine
end

