-- ==== Sys2Proof/Machine/Pairing.lean ====
section
/-! DEFINITION. Pairing sets, plugboard and reflector: CON, DIS, ISP, PLG, RFE, PLB
(42_pairing_plugboard_reflector.md). -/

namespace Sys2Proof.Machine

/-- `mirror(n)`: every index paired with itself (R122, MIR). -/
def PairSet.mirror (n : Nat) : PairSet :=
  { paired := List.replicate n true, partner := List.range n }

/-- `flipped(n)`: `v` paired with `n-1-v` (R122, FLP). -/
def PairSet.flipped (n : Nat) : PairSet :=
  { paired := List.replicate n true, partner := (List.range n).map fun v => n - 1 - v }

/-- The staging buffer as a pairing: an entry not written is an unpaired index (R122, STG). -/
def Staging.pairing (g : Staging) (n : Nat) : PairSet :=
  { paired := (List.range n).map g.isWritten
    partner := (List.range n).map fun v => if g.isWritten v then g.entry v else 0 }

/-- `PairCand(kind)` (R122). -/
def Engine.pairCand (e : Engine) : PairKind → PairSet
  | .emp => PairSet.empty e.n
  | .mir => PairSet.mirror e.n
  | .flp => PairSet.flipped e.n
  | .stg => e.staging.pairing e.n

/-- `Symmetric(p, t)`: the smallest index at which the check fails, if there is one (R123). -/
def PairSet.firstAsymmetry (s : PairSet) (n : Nat) : Option Nat :=
  (List.range n).find? fun v =>
    s.isPaired v && (!s.isPaired (s.partnerOf v) || s.partnerOf (s.partnerOf v) != v)

/-- `PlugEnc(v)`: the partner, or `v` itself when unpaired (R125). -/
def Engine.plugEnc (e : Engine) (v : Nat) : Nat :=
  if e.plugboard.isPaired v then e.plugboard.partnerOf v else v

/-- CON a, b, connect two plugboard indices (R126). -/
def execCon (a b : Nat) (s : State) : Host.Outcome State Fault Refusal :=
  s.needIndex a <| s.needIndex b <| s.needUnpaired a <| s.needUnpaired b <|
    s.succeed { s.engine with plugboard := s.engine.plugboard.connect a b } 0

/-- DIS a, disconnect a plugboard index; a success that changes nothing when it is unpaired (R127, C3). -/
def execDis (a : Nat) (s : State) : Host.Outcome State Fault Refusal :=
  s.needIndex a <|
    s.succeed { s.engine with plugboard := s.engine.plugboard.disconnect a } 0

/-- The pairing set an ISP names (R128). -/
def Engine.target (e : Engine) : Target → PairSet
  | .pb => e.plugboard
  | .rf => e.reflector

/-- ISP t, v, is-paired query with partner; never NotFoundError (R128). -/
def execIsp (t : Target) (v : Nat) (s : State) : Host.Outcome State Fault Refusal :=
  s.needIndex v <| s.succeed s.engine ((s.engine.target t).query v)

/-- PLG v, plugboard encode (R130). -/
def execPlg (v : Nat) (s : State) : Host.Outcome State Fault Refusal :=
  s.needIndex v <| s.succeed s.engine (s.engine.plugEnc v)

/-- RFE v, reflector encode (R132). -/
def execRfe (v : Nat) (s : State) : Host.Outcome State Fault Refusal :=
  s.needIndex v <| s.needReflected v <| s.succeed s.engine (s.engine.reflector.partnerOf v)

/-- PLB kind, replace the whole plugboard by a constructed pairing set, checked first (R134). -/
def execPlb (kind : PairKind) (s : State) : Host.Outcome State Fault Refusal :=
  match (s.engine.pairCand kind).firstAsymmetry s.engine.n with
  | some v => s.raise .invariant v
  | none => s.succeed { s.engine with plugboard := s.engine.pairCand kind } 0

end Sys2Proof.Machine
end

