-- ==== Sys2Proof/Machine/PermutationTable.lean ====
section
/-! DEFINITION. Permutation tables and the staging buffer: STC, STG, PFW, PIN (41_permutation_table.md). -/

namespace Sys2Proof.Machine

/-- `Inverse(c)`: `r[c[i]] <- i` for `i` in `0 .. N-1` (R102). -/
def inverseTable (n : Nat) (c : List Nat) : List Nat :=
  (List.range n).foldl (fun r i => r.set (readEntry c i) i) (List.replicate n 0)

/-- The table of ASC, `c[i] = i` (R104). -/
def ascendingTable (n : Nat) : List Nat := List.range n

/-- The table of DSC, `c[i] = N-1-i` (R104). -/
def descendingTable (n : Nat) : List Nat := (List.range n).map fun i => n - 1 - i

/-- The smallest entry number never written, if there is one (R104, first loop). -/
def Staging.firstGap (g : Staging) (n : Nat) : Option Nat :=
  (List.range n).find? fun i => !g.isWritten i

/-- The smallest entry number whose value repeats an earlier entry's value (R104, second loop). -/
def Staging.firstRepeat (g : Staging) (n : Nat) : Option Nat :=
  (List.range n).find? fun i => (List.range i).any fun j => g.entry j == g.entry i

/-- The staging buffer as a permutation: the table, or the `info` of InvariantError, gaps before repeats (R104). -/
def Staging.permutation (g : Staging) (n : Nat) : Except Nat (List Nat) :=
  match g.firstGap n with
  | some i => .error i
  | none =>
    match g.firstRepeat n with
    | some i => .error i
    | none => .ok ((List.range n).map g.entry)

/-- `PermCand(kind)`: the candidate table, or the `info` of InvariantError (R104). -/
def Engine.permCand (e : Engine) : PermKind → Except Nat (List Nat)
  | .asc => .ok (ascendingTable e.n)
  | .dsc => .ok (descendingTable e.n)
  | .stg => e.staging.permutation e.n

/-- `PermEnc(k, i)` (R100). -/
def Engine.permEnc (e : Engine) (k i : Nat) : Nat := e.fwd k i

/-- `PermDec(k, i)` (R100). -/
def Engine.permDec (e : Engine) (k i : Nat) : Nat := e.inv k i

/-- STC, clear the staging buffer (R106). -/
def execStc (s : State) : Host.Outcome State Fault Refusal :=
  s.succeed { s.engine with staging := Staging.clear s.engine.n } 0

/-- STG i, d, write one staging entry (R107). -/
def execStg (i d : Nat) (s : State) : Host.Outcome State Fault Refusal :=
  s.needIndex i <| s.needIndex d <|
    s.succeed { s.engine with staging := s.engine.staging.write i d } 0

/-- PFW k, i, forward lookup in rotor `k`'s wiring (R108). -/
def execPfw (k i : Nat) (s : State) : Host.Outcome State Fault Refusal :=
  s.needSlot k <| s.needIndex i <| s.succeed s.engine (s.engine.permEnc k i)

/-- PIN k, i, inverse lookup in rotor `k`'s wiring (R109). -/
def execPin (k i : Nat) (s : State) : Host.Outcome State Fault Refusal :=
  s.needSlot k <| s.needIndex i <| s.succeed s.engine (s.engine.permDec k i)

end Sys2Proof.Machine
end

