-- ==== Sys2Proof/Machine/Builder.lean ====
section
/-! DEFINITION. Construction of the machine: NEW, INF, ROT, RFL (45_machine.md, section 1). -/

namespace Sys2Proof.Machine

/-- `ReflectorOK(p, t)`: the smallest index that is unpaired or paired with itself, if there is one (R195). -/
def PairSet.firstNotReflecting (s : PairSet) (n : Nat) : Option Nat :=
  (List.range n).find? fun v => !s.isPaired v || s.partnerOf v == v

/-- The new rotor on top of the stack: the table, its derived inverse, position 0 (R194). -/
def Engine.installRotor (e : Engine) (c : List Nat) : Engine :=
  { e with rotors := e.rotors ++ [{ fwd := c, inv := inverseTable e.n c, pos := 0 }] }

/-- NEW, make a new, empty machine: exactly the reset state of the instance (R190, R37). -/
def execNew (s : State) : Host.Outcome State Fault Refusal := s.succeed (Engine.reset s.engine.inst) 0

/-- What INF reads (R191). -/
def Engine.info (e : Engine) : InfSel → Nat
  | .n => e.n
  | .nrot => e.nrot
  | .rmax => e.rmax

/-- INF sel, read a constant or the rotor count (R191). -/
def execInf (sel : InfSel) (s : State) : Host.Outcome State Fault Refusal :=
  s.succeed s.engine (s.engine.info sel)

/-- ROT kind, append a rotor to the stack; returns the slot just installed (R194). -/
def execRot (kind : PermKind) (s : State) : Host.Outcome State Fault Refusal :=
  if s.engine.nrot = s.engine.rmax then s.raise .slot s.engine.nrot
  else
    match s.engine.permCand kind with
    | .error i => s.raise .invariant i
    | .ok c => s.succeed (s.engine.installRotor c) s.engine.nrot

/-- RFL kind, install the reflector: the symmetry check, then the reflector check (R196). -/
def execRfl (kind : PairKind) (s : State) : Host.Outcome State Fault Refusal :=
  match (s.engine.pairCand kind).firstAsymmetry s.engine.n with
  | some v => s.raise .invariant v
  | none =>
    match (s.engine.pairCand kind).firstNotReflecting s.engine.n with
    | some v => s.raise .invariant v
    | none => s.succeed { s.engine with reflector := s.engine.pairCand kind } 0

end Sys2Proof.Machine
end

