-- ==== Sys2Proof/Machine/RotorUnit.lean ====
section
/-! DEFINITION. The rotor: REN, RDE, ADV, SPR (43_rotor.md). Arithmetic is exact, over the natural numbers (R10);
the 9-bit adders of R153 compute the same (log entry 8). -/

namespace Sys2Proof.Machine

/-- `RotorEnc`: `fwd[(v + p) mod N]` for a rotor at position `p` (R150). `rotorDec` at the same position undoes it
(R158). -/
def rotorEnc (n : Nat) (r : Rotor) (p v : Nat) : Nat := readEntry r.fwd ((v + p) % n)

/-- `RotorDec`: `(inv[v] + N - p) mod N`, `N` added before the position is subtracted (R151). `rotorEnc` at the same position
undoes it (R158). -/
def rotorDec (n : Nat) (r : Rotor) (p v : Nat) : Nat := (readEntry r.inv v + n - p) % n

/-- The position after one advance, `(p + 1) mod N` (R156, R176). -/
def nextPosition (n p : Nat) : Nat := (p + 1) % n

/-- REN k, v, rotor encode at the current position (R154). -/
def execRen (k v : Nat) (s : State) : Host.Outcome State Fault Refusal :=
  s.needSlot k <| s.needIndex v <|
    s.succeed s.engine (rotorEnc s.engine.n (s.engine.slot k) (s.engine.pos k) v)

/-- RDE k, v, rotor decode at the current position (R155). -/
def execRde (k v : Nat) (s : State) : Host.Outcome State Fault Refusal :=
  s.needSlot k <| s.needIndex v <|
    s.succeed s.engine (rotorDec s.engine.n (s.engine.slot k) (s.engine.pos k) v)

/-- ADV k, advance one rotor by one position, without carry (R156). -/
def execAdv (k : Nat) (s : State) : Host.Outcome State Fault Refusal :=
  s.needSlot k <|
    s.succeed (s.engine.setPos k (nextPosition s.engine.n (s.engine.pos k)))
      (nextPosition s.engine.n (s.engine.pos k))

/-- SPR k, p, set one rotor's position; a raw position is reduced, not refused (R157). -/
def execSpr (k p : Nat) (s : State) : Host.Outcome State Fault Refusal :=
  s.needSlot k <| s.succeed (s.engine.setPos k (s.engine.rawPosition p)) 0

end Sys2Proof.Machine
end

