-- ==== Sys2Proof/Machine/RotorStack.lean ====
section
/-! DEFINITION. The rotor stack and the stepper with carry: SEN, SDE, STP, POS, PLW, SPS, RSP
(44_rotor_stack.md). -/

namespace Sys2Proof.Machine

/-- `StackEnc(P, v)`: slot 0 first (R170). -/
def stackEnc (n : Nat) (rotors : List Rotor) (p : List Nat) (v : Nat) : Nat :=
  (rotors.zip p).foldl (fun x rp => rotorEnc n rp.1 rp.2 x) v

/-- `StackDec(P, v)`: the last installed slot first, slot 0 last (R171). -/
def stackDec (n : Nat) (rotors : List Rotor) (p : List Nat) (v : Nat) : Nat :=
  (rotors.zip p).foldr (fun rp x => rotorDec n rp.1 rp.2 x) v

/-- The loop of the stepping function with the carry into the first rotor of the list: the carry out of a rotor
is computed from its position BEFORE the advance, and only if it advances (R175, R176). -/
def advanceWith (n : Nat) : Bool → List Nat → List Nat
  | _, [] => []
  | false, p :: ps => p :: advanceWith n false ps
  | true, p :: ps => nextPosition n p :: advanceWith n (p == n - 1) ps

/-- `StackAdvance(P)`: rotor 0 always advances; the carry out of the last rotor is dropped (R176). -/
def stackAdvance (n : Nat) (p : List Nat) : List Nat := advanceWith n true p

/-- The list operand of SPS, applied as `set_position` is: `pl[k] mod N` for every installed `k` (R181). -/
def Engine.listedPositions (e : Engine) : List Nat :=
  (List.range e.nrot).map fun k => e.rawPosition (e.pl k)

/-- SEN v, stack encode at the current positions (R173). -/
def execSen (v : Nat) (s : State) : Host.Outcome State Fault Refusal :=
  s.needIndex v <| s.succeed s.engine (stackEnc s.engine.n s.engine.rotors s.engine.positions v)

/-- SDE v, stack decode at the current positions (R174). -/
def execSde (v : Nat) (s : State) : Host.Outcome State Fault Refusal :=
  s.needIndex v <| s.succeed s.engine (stackDec s.engine.n s.engine.rotors s.engine.positions v)

/-- STP, advance the rotor stack by one step (R177). -/
def execStp (s : State) : Host.Outcome State Fault Refusal :=
  s.succeed (s.engine.setPositions (stackAdvance s.engine.n s.engine.positions)) 0

/-- POS k, read one rotor's position (R179). -/
def execPos (k : Nat) (s : State) : Host.Outcome State Fault Refusal :=
  s.needSlot k <| s.succeed s.engine (s.engine.pos k)

/-- PLW k, p, write one element of the position list buffer, not reduced (R180). -/
def execPlw (k p : Nat) (s : State) : Host.Outcome State Fault Refusal :=
  s.needListSlot k <| s.succeed { s.engine with posList := s.engine.posList.set k p } 0

/-- SPS len, set all rotor positions from the list (R181). -/
def execSps (len : Nat) (s : State) : Host.Outcome State Fault Refusal :=
  s.needLength len <| s.succeed (s.engine.setPositions s.engine.listedPositions) 0

/-- RSP, reset all rotor positions (R182). -/
def execRsp (s : State) : Host.Outcome State Fault Refusal := s.succeed s.engine.zeroPositions 0

end Sys2Proof.Machine
end

