-- ==== Sys2Proof/Machine/EncodePath.lean ====
section
/-! DEFINITION. The composed encode path and the machine's own reset: ENC, DEC, RST (45_machine.md, section 2). -/

namespace Sys2Proof.Machine

/-- `x1`: the index presented to the reflector, through plugboard and stack at the positions `P` (R197). -/
def Engine.toReflector (e : Engine) (p : List Nat) (v : Nat) : Nat :=
  stackEnc e.n e.rotors p (e.plugEnc v)

/-- `x4` from `x2`: back through stack and plugboard at the same positions (R197). -/
def Engine.fromReflector (e : Engine) (p : List Nat) (x : Nat) : Nat :=
  e.plugEnc (stackDec e.n e.rotors p x)

/-- `MachineEnc(P, v)` with a reflector installed (R197). -/
def Engine.machineEnc (e : Engine) (p : List Nat) (v : Nat) : Nat :=
  e.fromReflector p (e.reflector.partnerOf (e.toReflector p v))

/-- The positions the next encode uses: one step after the present ones (R198). -/
def Engine.stepped (e : Engine) : List Nat := stackAdvance e.n e.positions

/-- The pseudocode ENC and DEC share: range check, step, path with the stepped positions, the step kept only
when the reflector has a partner (R200). -/
def State.encodeIndex (s : State) (v : Nat) : Host.Outcome State Fault Refusal :=
  s.needIndex v <| s.needReflected (s.engine.toReflector s.engine.stepped v) <|
    s.succeed (s.engine.setPositions s.engine.stepped) (s.engine.machineEnc s.engine.stepped v)

/-- ENC v, encode one index (R200). -/
def execEnc (v : Nat) (s : State) : Host.Outcome State Fault Refusal := s.encodeIndex v

/-- DEC v, decode one index: "exactly the pseudocode of ENC" (R201). -/
def execDec (v : Nat) (s : State) : Host.Outcome State Fault Refusal := s.encodeIndex v

/-- RST, reset the machine's rotor positions: the effect of RSP (R202). -/
def execRst (s : State) : Host.Outcome State Fault Refusal := s.succeed s.engine.zeroPositions 0

end Sys2Proof.Machine
end

