-- ==== Sys2Proof/Machine/Dispatch.lean ====
section
/-! DEFINITION. One arm per command: each is a direct call of that command's meaning. -/

namespace Sys2Proof.Machine

def exec (i : Instr) (s : State) : Host.Outcome State Fault Refusal :=
  match i with
  | .new => Sys2Proof.Machine.execNew s
  | .inf sel => Sys2Proof.Machine.execInf sel s
  | .stc => Sys2Proof.Machine.execStc s
  | .stg idx d => Sys2Proof.Machine.execStg idx d s
  | .pfw k idx => Sys2Proof.Machine.execPfw k idx s
  | .pin k idx => Sys2Proof.Machine.execPin k idx s
  | .con a b => Sys2Proof.Machine.execCon a b s
  | .dis a => Sys2Proof.Machine.execDis a s
  | .isp t v => Sys2Proof.Machine.execIsp t v s
  | .plg v => Sys2Proof.Machine.execPlg v s
  | .rfe v => Sys2Proof.Machine.execRfe v s
  | .plb kind => Sys2Proof.Machine.execPlb kind s
  | .ren k v => Sys2Proof.Machine.execRen k v s
  | .rde k v => Sys2Proof.Machine.execRde k v s
  | .adv k => Sys2Proof.Machine.execAdv k s
  | .spr k p => Sys2Proof.Machine.execSpr k p s
  | .sen v => Sys2Proof.Machine.execSen v s
  | .sde v => Sys2Proof.Machine.execSde v s
  | .stp => Sys2Proof.Machine.execStp s
  | .pos k => Sys2Proof.Machine.execPos k s
  | .plw k p => Sys2Proof.Machine.execPlw k p s
  | .sps len => Sys2Proof.Machine.execSps len s
  | .rsp => Sys2Proof.Machine.execRsp s
  | .rot kind => Sys2Proof.Machine.execRot kind s
  | .rflct kind => Sys2Proof.Machine.execRfl kind s
  | .enc v => Sys2Proof.Machine.execEnc v s
  | .dec v => Sys2Proof.Machine.execDec v s
  | .rst => Sys2Proof.Machine.execRst s

end Sys2Proof.Machine
end

