-- ==== Sys2Proof/Machine/Step.lean ====
section
/-! DEFINITION. One step: the host's next event at the port. -/

namespace Sys2Proof.Machine

/-- One transaction (R70): the next thing the host does. With no command the engine does nothing (R70, R269);
a command word is decoded and executed, and a word that is no command raises IllegalCommandError (R81); the reset
event gives the reset state, and abandons the command it interrupts (R250). -/
def step (s : State) : Host.Outcome State Fault Refusal :=
  if s.engine.inst.Valid then
    match s.port.pending with
    | [] => .next s
    | .reset :: rest => .next (s.withPending rest).hardwareReset
    | .resetDuring _ :: rest => .next (s.withPending rest).hardwareReset
    | .command w :: rest =>
      match decode w with
      | .ok i => exec i (s.withPending rest)
      | .error _ => (s.withPending rest).illegal (fieldOpc w)
  else .refused .noSuchInstance

/-- `s` with the host about to present the command word whose bits, as the opcode table numbers them, are `w`. -/
def State.withFetchWord (s : State) (nbits w : Nat) : State := s.present (wordOfTable nbits w)

end Sys2Proof.Machine
end

