-- ==== Sys2Proof/Machine/Assembler.lean ====
section
/-! DEFINITION. The assembler notation (R82) and the pseudo-commands (R83), which have no encoding of their own. -/

namespace Sys2Proof.Machine

/-- The name of a selector of INF in a listing (R82). -/
def infSelText : InfSel → String
  | .n => "N"
  | .nrot => "NROT"
  | .rmax => "RMAX"

/-- The name of a target of ISP in a listing (R82). -/
def targetText : Target → String
  | .pb => "PB"
  | .rf => "RF"

/-- The name of a kind of ROT in a listing (R79, R82). -/
def permKindText : PermKind → String
  | .asc => "ASC"
  | .dsc => "DSC"
  | .stg => "STG"

/-- The name of a kind of RFL or PLB in a listing (R79, R82). -/
def pairKindText : PairKind → String
  | .emp => "EMP"
  | .mir => "MIR"
  | .flp => "FLP"
  | .stg => "STG"

/-- `MNEMONIC operand`. -/
def oneOperandText (m a : String) : String := m ++ " " ++ a

/-- `MNEMONIC operand, operand`. -/
def twoOperandText (m a b : String) : String := m ++ " " ++ a ++ ", " ++ b

/-- A command in the notation of R82, operands in the order `A`, `B`, `C`, numbers in decimal. -/
def assemblerText : Instr → String
  | .new => "NEW"
  | .inf sel => oneOperandText "INF" (infSelText sel)
  | .stc => "STC"
  | .stg i d => twoOperandText "STG" i.repr d.repr
  | .pfw k i => twoOperandText "PFW" k.repr i.repr
  | .pin k i => twoOperandText "PIN" k.repr i.repr
  | .con a b => twoOperandText "CON" a.repr b.repr
  | .dis a => oneOperandText "DIS" a.repr
  | .isp t v => twoOperandText "ISP" (targetText t) v.repr
  | .plg v => oneOperandText "PLG" v.repr
  | .rfe v => oneOperandText "RFE" v.repr
  | .plb kind => oneOperandText "PLB" (pairKindText kind)
  | .ren k v => twoOperandText "REN" k.repr v.repr
  | .rde k v => twoOperandText "RDE" k.repr v.repr
  | .adv k => oneOperandText "ADV" k.repr
  | .spr k p => twoOperandText "SPR" k.repr p.repr
  | .sen v => oneOperandText "SEN" v.repr
  | .sde v => oneOperandText "SDE" v.repr
  | .stp => "STP"
  | .pos k => oneOperandText "POS" k.repr
  | .plw k p => twoOperandText "PLW" k.repr p.repr
  | .sps len => oneOperandText "SPS" len.repr
  | .rsp => "RSP"
  | .rot kind => oneOperandText "ROT" (permKindText kind)
  | .rflct kind => oneOperandText "RFL" (pairKindText kind)
  | .enc v => oneOperandText "ENC" v.repr
  | .dec v => oneOperandText "DEC" v.repr
  | .rst => "RST"

/-- The pseudo-commands of R83. -/
inductive Pseudo where
  /-- `RRS k`. -/
  | rrs (k : Nat)
  /-- `TBL d0, d1, ..., d(N-1)`. -/
  | tbl (ds : List Nat)
  /-- `PRS a0:b0, a1:b1, ...`. -/
  | prs (pairs : List (Nat × Nat))
  /-- `SETPOS p0, p1, ..., p(m-1)`. -/
  | setpos (ps : List Nat)
  deriving DecidableEq, Repr

/-- `STG i, d0`; `STG i+1, d1`; ... : the entries of a table from entry `i` on. -/
def stageFrom (i : Nat) : List Nat → List Instr
  | [] => []
  | d :: ds => .stg i d :: stageFrom (i + 1) ds

/-- `PLW k, p0`; `PLW k+1, p1`; ... : the elements of a position list from element `k` on. -/
def listFrom (k : Nat) : List Nat → List Instr
  | [] => []
  | p :: ps => .plw k p :: listFrom (k + 1) ps

/-- A pair written in both directions, a self-pair once. -/
def stagePair (ab : Nat × Nat) : List Instr :=
  if ab.1 = ab.2 then [.stg ab.1 ab.1] else [.stg ab.1 ab.2, .stg ab.2 ab.1]

/-- The expansion of a pseudo-command (R83). -/
def expandPseudo : Pseudo → List Instr
  | .rrs k => [.spr k 0]
  | .tbl ds => .stc :: stageFrom 0 ds
  | .prs pairs => .stc :: pairs.flatMap stagePair
  | .setpos ps => listFrom 0 ps ++ [.sps ps.length]

/-- The host issues commands one after another, each after the response to the one before it, faults or not (R83). -/
def issueAll : List Instr → State → Host.Outcome State Fault Refusal
  | [], s => .next s
  | i :: is, s =>
    match exec i s with
    | .next t => issueAll is t
    | .fault r => .fault r
    | .refused r => .refused r

end Sys2Proof.Machine
end

