-- ==== Sys2Proof/Safety.lean ====
section
/-! DEFINITION. The terms in which claims are stated: the invariants of R35, the two ends of a command, what a
command leaves alone, the spec's fault matrix and opcode table, and the odometer's number. -/

namespace Sys2Proof.Machine

/-! ### The invariants of R35 -/

/-- Every table has its size: `N` entries (R24 to R28), `RMAX` for the position list (R29). -/
abbrev Engine.Sized (e : Engine) : Prop :=
  (∀ k, k < e.nrot → (e.slot k).fwd.length = e.n ∧ (e.slot k).inv.length = e.n) ∧
  (e.plugboard.paired.length = e.n ∧ e.plugboard.partner.length = e.n) ∧
  (e.reflector.paired.length = e.n ∧ e.reflector.partner.length = e.n) ∧
  (e.staging.written.length = e.n ∧ e.staging.data.length = e.n) ∧
  e.posList.length = e.rmax

/-- I-NROT. -/
abbrev Engine.INrot (e : Engine) : Prop := e.nrot ≤ e.rmax

/-- I-POS. -/
abbrev Engine.IPos (e : Engine) : Prop := ∀ k, k < e.nrot → e.pos k < e.n

/-- I-PERM: both tables of an installed slot map `0 .. N-1` into itself and undo each other, so each is a
permutation. -/
abbrev Engine.IPerm (e : Engine) : Prop :=
  ∀ k, k < e.nrot → ∀ i, i < e.n →
    e.fwd k i < e.n ∧ e.inv k i < e.n ∧ e.inv k (e.fwd k i) = i ∧ e.fwd k (e.inv k i) = i

/-- The statement of I-PB for a pairing set: symmetric, and partner 0 where unpaired. -/
abbrev PairSet.Matching (s : PairSet) (n : Nat) : Prop :=
  ∀ v, v < n →
    (s.isPaired v = true →
      s.partnerOf v < n ∧ s.isPaired (s.partnerOf v) = true ∧ s.partnerOf (s.partnerOf v) = v) ∧
    (s.isPaired v = false → s.partnerOf v = 0)

/-- I-PB. -/
abbrev Engine.IPb (e : Engine) : Prop := e.plugboard.Matching e.n

/-- The first case of I-RF: no reflector installed. -/
abbrev PairSet.Empty (s : PairSet) (n : Nat) : Prop :=
  ∀ v, v < n → s.isPaired v = false ∧ s.partnerOf v = 0

/-- The second case of I-RF: total, symmetric, no fixed point. -/
abbrev PairSet.Total (s : PairSet) (n : Nat) : Prop :=
  ∀ v, v < n →
    s.isPaired v = true ∧ s.partnerOf v < n ∧ s.partnerOf v ≠ v ∧ s.partnerOf (s.partnerOf v) = v

/-- I-RF. -/
abbrev Engine.IRf (e : Engine) : Prop := e.reflector.Empty e.n ∨ e.reflector.Total e.n

/-- I-STG. -/
abbrev Engine.IStg (e : Engine) : Prop :=
  ∀ i, i < e.n → e.staging.entry i < e.n ∧ (e.staging.isWritten i = false → e.staging.entry i = 0)

/-- The entries of the position list are 8-bit values (R29). -/
abbrev Engine.IPl (e : Engine) : Prop := ∀ k, k < e.rmax → e.pl k < 256

/-- Everything R35 says holds after reset and after every command, with the parameters' range (R6) and the sizes
and ranges of R24 to R29. -/
abbrev Engine.Inv (e : Engine) : Prop :=
  e.inst.Valid ∧ e.Sized ∧ e.INrot ∧ e.IPos ∧ e.IPerm ∧ e.IPb ∧ e.IRf ∧ e.IStg ∧ e.IPl

/-- A safe state of the machine: its engine satisfies R35. -/
abbrev State.Safe (s : State) : Prop := s.engine.Inv

/-! ### The two ends of a command -/

/-- The state after a success: engine `e`, the success response `d` given, the rest of the port as it was (R74). -/
def State.answered (s : State) (e : Engine) (d : Nat) : State := (s.withEngine e).reply (successResponse d)

/-- The state after a fault: the fault response given, everything else as it was (R75, R223). -/
def State.faulted (s : State) (f : FaultKind) (info : Nat) : State := s.reply (faultResponse f info)

/-! ### What a command leaves alone -/

/-- Nothing but positions differs: the constants, the number of rotors, every wiring, the plugboard, the reflector,
the staging buffer and the position list are the same. -/
def Engine.SameButPositions (e e' : Engine) : Prop :=
  e'.inst = e.inst ∧ e'.nrot = e.nrot ∧
  (∀ k, (e'.slot k).fwd = (e.slot k).fwd ∧ (e'.slot k).inv = (e.slot k).inv) ∧
  e'.plugboard = e.plugboard ∧ e'.reflector = e.reflector ∧ e'.staging = e.staging ∧ e'.posList = e.posList

/-- A rotor wired `c` has been put on top of the stack at position 0, with the inverse table derived, and nothing
else has changed (R194). -/
def Engine.Appended (e e' : Engine) (c : Nat → Nat) : Prop :=
  e'.nrot = e.nrot + 1 ∧ (∀ k, k < e.nrot → e'.slot k = e.slot k) ∧ e'.pos e.nrot = 0 ∧
  (∀ i, i < e.n → e'.fwd e.nrot i = c i ∧ e'.inv e.nrot (c i) = i) ∧
  e'.inst = e.inst ∧ e'.plugboard = e.plugboard ∧ e'.reflector = e.reflector ∧ e'.staging = e.staging ∧
  e'.posList = e.posList

/-- Rotor `j` advances in a step exactly when every rotor below it was at `N-1` before the step (R175). -/
abbrev Engine.advances (e : Engine) (j : Nat) : Prop := ∀ i, i < j → e.pos i = e.n - 1

/-! ### The writers of each part of the state (R21, R30, R50) -/

/-- The commands that write a position of a rotor that stays installed (R21). -/
def writesPositions : Instr → Bool
  | .adv _ => true
  | .spr _ _ => true
  | .stp => true
  | .sps _ => true
  | .rsp => true
  | .enc _ => true
  | .dec _ => true
  | .rst => true
  | .new => true
  | _ => false

/-- The commands that write the plugboard (R50). -/
def writesPlugboard : Instr → Bool
  | .con _ _ => true
  | .dis _ => true
  | .plb _ => true
  | .new => true
  | _ => false

/-- The commands that write the reflector (R50). -/
def writesReflector : Instr → Bool
  | .rflct _ => true
  | .new => true
  | _ => false

/-- The commands that write the staging buffer (R50). -/
def writesStaging : Instr → Bool
  | .stg _ _ => true
  | .stc => true
  | .new => true
  | _ => false

/-- The commands that write the position list buffer (R50). -/
def writesPosList : Instr → Bool
  | .plw _ _ => true
  | .new => true
  | _ => false

/-- The commands that write `NROT` (R30). -/
def writesNrot : Instr → Bool
  | .rot _ => true
  | .new => true
  | _ => false

/-! ### The fault matrix (R232) -/

/-- The faults a legal command can raise, row by row (R232). -/
def mayRaise : Instr → List FaultKind
  | .new => []
  | .stc => []
  | .stp => []
  | .rsp => []
  | .rst => []
  | .inf _ => []
  | .stg _ _ => [.indexOutOfRange]
  | .pfw _ _ => [.slot, .indexOutOfRange]
  | .pin _ _ => [.slot, .indexOutOfRange]
  | .ren _ _ => [.slot, .indexOutOfRange]
  | .rde _ _ => [.slot, .indexOutOfRange]
  | .adv _ => [.slot]
  | .spr _ _ => [.slot]
  | .pos _ => [.slot]
  | .plw _ _ => [.slot]
  | .con _ _ => [.indexOutOfRange, .conflict]
  | .dis _ => [.indexOutOfRange]
  | .isp _ _ => [.indexOutOfRange]
  | .plg _ => [.indexOutOfRange]
  | .sen _ => [.indexOutOfRange]
  | .sde _ => [.indexOutOfRange]
  | .rfe _ => [.indexOutOfRange, .notFound]
  | .plb _ => [.invariant]
  | .sps _ => [.sizeMismatch]
  | .rot _ => [.slot, .invariant]
  | .rflct _ => [.invariant]
  | .enc _ => [.indexOutOfRange, .notFound]
  | .dec _ => [.indexOutOfRange, .notFound]

/-! ### The opcode table as the spec prints it (R71, R77, R79) -/

/-- A row of spec/opcode_table.json: a word belongs to it when `word &&& mask = match`, and is legal when the
named-value field of R79, if the row has one, is at most `limit`. -/
structure OpcodeRow where
  pattern : Word
  mask : Word
  /-- The field that holds a kind, selector or target, as a mask; all zero when there is none. -/
  valueMask : Word
  /-- The largest legal value of that field, in place. -/
  limit : Word
  deriving DecidableEq, Repr

/-- The first half of the opcode table, `OPC = 0x01` to `0x25`. -/
def opcodeRowsLow : List OpcodeRow :=
  [ ⟨0x01000000, 0xFFFFFFFF, 0, 0⟩, ⟨0x02000000, 0xFFFFFF00, 0xFF, 2⟩, ⟨0x10000000, 0xFFFFFFFF, 0, 0⟩,
    ⟨0x11000000, 0xFFFF0000, 0, 0⟩, ⟨0x12000000, 0xFF00FF00, 0, 0⟩, ⟨0x13000000, 0xFF00FF00, 0, 0⟩,
    ⟨0x20000000, 0xFFFF0000, 0, 0⟩, ⟨0x21000000, 0xFFFFFF00, 0, 0⟩, ⟨0x22000000, 0xFF00FF00, 0xFF0000, 0x10000⟩,
    ⟨0x23000000, 0xFFFFFF00, 0, 0⟩, ⟨0x24000000, 0xFFFFFF00, 0, 0⟩, ⟨0x25000000, 0xFFFFFF00, 0xFF, 3⟩ ]

/-- The second half of the opcode table, `OPC = 0x30` to `0x54`. -/
def opcodeRowsHigh : List OpcodeRow :=
  [ ⟨0x30000000, 0xFF00FF00, 0, 0⟩, ⟨0x31000000, 0xFF00FF00, 0, 0⟩, ⟨0x32000000, 0xFF00FFFF, 0, 0⟩,
    ⟨0x33000000, 0xFF00FF00, 0, 0⟩, ⟨0x40000000, 0xFFFFFF00, 0, 0⟩, ⟨0x41000000, 0xFFFFFF00, 0, 0⟩,
    ⟨0x42000000, 0xFFFFFFFF, 0, 0⟩, ⟨0x43000000, 0xFF00FFFF, 0, 0⟩, ⟨0x44000000, 0xFF00FF00, 0, 0⟩,
    ⟨0x45000000, 0xFFFFFF00, 0, 0⟩, ⟨0x46000000, 0xFFFFFFFF, 0, 0⟩, ⟨0x50000000, 0xFFFFFF00, 0xFF, 2⟩,
    ⟨0x51000000, 0xFFFFFF00, 0xFF, 3⟩, ⟨0x52000000, 0xFFFFFF00, 0, 0⟩, ⟨0x53000000, 0xFFFFFF00, 0, 0⟩,
    ⟨0x54000000, 0xFFFFFFFF, 0, 0⟩ ]

/-- The 28 rows of spec/opcode_table.json. -/
def opcodeRows : List OpcodeRow := opcodeRowsLow ++ opcodeRowsHigh

/-- A word that none of R78, R79, R80 calls illegal. -/
abbrev LegalWord (w : Word) : Prop :=
  ∃ row ∈ opcodeRows, w &&& row.mask = row.pattern ∧ w &&& row.valueMask ≤ row.limit

/-! ### The odometer's number (R178) -/

/-- `X(P)`: the position vector read in base `N`, slot 0 the least significant digit (R178). -/
def odometerValue (n : Nat) : List Nat → Nat
  | [] => 0
  | p :: ps => p + n * odometerValue n ps

end Sys2Proof.Machine
end

