-- ==== Sys2Proof/Certificates/Slice0/Obligations.lean ====
section
/-! DEFINITION. The statements for the provers. Each docstring names the rule of spec/ it formalises. `s.answered e d`
is the state after a success (engine `e`, success response `d`), `s.faulted f info` the state after a fault (the
response alone differs); both leave the rest of the port as it was (Sys2Proof/Safety.lean). The port's two lists are how
the model holds the transactions of R70: their form is the model's choice (log entry 2), the words in them are not. -/

open Sys2Proof Sys2Proof.Machine

/-! ### Encoding -/

/-- R81: decoding an encoded well-formed command gives it back, with every operand at every value. -/
def Obligations.DecodeOfEncodeIsTheInstruction : Prop :=
  ∀ i : Instr, i.WellFormed → decode (encode i) = .ok i

/-- R81, the other direction: a word that decodes is the word of exactly the command it decodes to, and that
command is well formed, so every word has one meaning and no bit of it is dropped. -/
def Obligations.EncodeOfDecodeIsTheWord : Prop :=
  ∀ (w : Word) (i : Instr), decode w = .ok i → i.WellFormed ∧ encode i = w

/-- R78, R79, R80, R81: the decoder accepts exactly the words of the opcode table's rows (mask and match) whose
kind, selector or target is a value of R79. -/
def Obligations.DecoderAcceptsExactlyTheLegalWords : Prop :=
  ∀ w : Word, (∃ i, decode w = .ok i) ↔ LegalWord w

/-- R77, R79: one word of every row of the opcode table, and one for every named value, decode to their commands; the
words of 30_encoding.md, section 7, are among them. The two words that section calls illegal are refused; the NAMES of
the two reasons are the model's choice (log entry 16), the spec's decoder answers only `Illegal` (R81). -/
def Obligations.SpecWordsDecodeToTheirCommands : Prop :=
  (decode 0x01000000 = .ok .new ∧ decode 0x02000000 = .ok (.inf .n) ∧ decode 0x02000001 = .ok (.inf .nrot) ∧
    decode 0x02000002 = .ok (.inf .rmax) ∧ decode 0x10000000 = .ok .stc ∧ decode 0x11000318 = .ok (.stg 3 24) ∧
    decode 0x12010019 = .ok (.pfw 1 25) ∧ decode 0x13020007 = .ok (.pin 2 7)) ∧
  (decode 0x20000509 = .ok (.con 5 9) ∧ decode 0x21000005 = .ok (.dis 5) ∧ decode 0x22000005 = .ok (.isp .pb 5) ∧
    decode 0x22010007 = .ok (.isp .rf 7) ∧ decode 0x23000007 = .ok (.plg 7) ∧ decode 0x24000012 = .ok (.rfe 18) ∧
    decode 0x25000000 = .ok (.plb .emp) ∧ decode 0x25000001 = .ok (.plb .mir) ∧ decode 0x25000002 = .ok (.plb .flp) ∧
    decode 0x25000003 = .ok (.plb .stg)) ∧
  (decode 0x30020019 = .ok (.ren 2 25) ∧ decode 0x3103001A = .ok (.rde 3 26) ∧ decode 0x32010000 = .ok (.adv 1) ∧
    decode 0x3301001E = .ok (.spr 1 30)) ∧
  (decode 0x40000007 = .ok (.sen 7) ∧ decode 0x41000012 = .ok (.sde 18) ∧ decode 0x42000000 = .ok .stp ∧
    decode 0x43030000 = .ok (.pos 3) ∧ decode 0x44030063 = .ok (.plw 3 99) ∧ decode 0x45000003 = .ok (.sps 3) ∧
    decode 0x46000000 = .ok .rsp) ∧
  (decode 0x50000000 = .ok (.rot .asc) ∧ decode 0x50000001 = .ok (.rot .dsc) ∧ decode 0x50000002 = .ok (.rot .stg) ∧
    decode 0x51000000 = .ok (.rflct .emp) ∧ decode 0x51000001 = .ok (.rflct .mir) ∧
    decode 0x51000002 = .ok (.rflct .flp) ∧ decode 0x51000003 = .ok (.rflct .stg) ∧ decode 0x52000007 = .ok (.enc 7) ∧
    decode 0x53000010 = .ok (.dec 16) ∧ decode 0x54000000 = .ok .rst) ∧
  decode 0x52000107 = .error .mustBeZero ∧ decode 0x00000000 = .error .reservedOpcode

/-- R73, R74, R75: the fields of the two kinds of response word, and R220: the numbers of the fault codes. -/
def Obligations.ResponseWordsHaveTheirFields : Prop :=
  (∀ (d : Nat) (f : FaultKind) (info : Nat),
    ((successResponse d).getLsbD 31 = false ∧ (successResponse d).extractLsb' 28 3 = 0 ∧
      (successResponse d).extractLsb' 24 4 = 0 ∧ (successResponse d).extractLsb' 16 8 = 0 ∧
      (successResponse d).extractLsb' 0 16 = BitVec.ofNat 16 d) ∧
    ((faultResponse f info).getLsbD 31 = true ∧ (faultResponse f info).extractLsb' 28 3 = 0 ∧
      ((faultResponse f info).extractLsb' 24 4).toNat = faultCode f ∧ faultCode f ≠ 0 ∧ faultCode f ≤ 8 ∧
      (faultResponse f info).extractLsb' 16 8 = 0 ∧
      (faultResponse f info).extractLsb' 0 16 = BitVec.ofNat 16 info)) ∧
  faultCode .unknownSymbol = 1 ∧ faultCode .indexOutOfRange = 2 ∧ faultCode .conflict = 3 ∧
  faultCode .notFound = 4 ∧ faultCode .sizeMismatch = 5 ∧ faultCode .illegalCommand = 6 ∧
  faultCode .invariant = 7 ∧ faultCode .slot = 8

/-! ### One step -/

/-- R70: when the host's next event is a command word that decodes, the step is that command's `exec`, the event
taken from the port. The port is the model's own field (log entry 2). -/
def Obligations.StepRunsTheDecodedInstruction : Prop :=
  ∀ (s : State) (w : Word) (i : Instr) (rest : List HostEvent), s.engine.inst.Valid →
    s.port.pending = .command w :: rest → decode w = .ok i → step s = exec i (s.withPending rest)

/-- R78, R79, R80: a word that is no command raises IllegalCommandError with `info = OPC` and does nothing else. -/
def Obligations.IllegalWordFaultsWithItsOpcode : Prop :=
  ∀ (s : State) (w : Word) (rest : List HostEvent), s.engine.inst.Valid →
    s.port.pending = .command w :: rest → ¬ LegalWord w →
    step s = .next ((s.withPending rest).faulted .illegalCommand (w.toNat / 2 ^ 24))

/-- R70, R269: with no command the engine does nothing and its state does not change. That a host with nothing left to
do is an idle step is the model's choice (log entry 2). -/
def Obligations.EngineWithoutCommandDoesNothing : Prop :=
  ∀ s : State, s.engine.inst.Valid → s.port.pending = [] → step s = .next s

/-- R250: the reset event, between commands or in the middle of one, gives the reset state of R37, and no
response. The event's two forms are the model's (log entries 2 and 6). -/
def Obligations.ResetEventGivesTheResetState : Prop :=
  ∀ (s : State) (w : Word) (rest : List HostEvent), s.engine.inst.Valid →
    (s.port.pending = .reset :: rest ∨ s.port.pending = .resetDuring w :: rest) →
    ∃ t, step s = .next t ∧ t.engine = Engine.reset s.engine.inst ∧ t.port.pending = rest ∧
      t.port.responses = s.port.responses

/-- R70, R81, R235: every command word, legal or not, in every state of an instance, gets exactly one response, and
the engine goes on. -/
def Obligations.EveryCommandWordGetsOneResponse : Prop :=
  ∀ (s : State) (w : Word) (rest : List HostEvent), s.engine.inst.Valid →
    s.port.pending = .command w :: rest →
    ∃ t r, step s = .next t ∧ t.port.pending = rest ∧ t.port.responses = r :: s.port.responses

/-! ### Reset and the invariants -/

/-- R37: what reset and NEW leave, for every instance: both give one engine state, and these are its values. -/
def Obligations.ResetLeavesTheSpecValues : Prop :=
  ∀ c : Instance,
    (State.resetOf c).engine = Engine.reset c ∧
    (∀ s : State, s.engine.inst = c → exec .new s = .next (s.answered (Engine.reset c) 0)) ∧
    (Engine.reset c).nrot = 0 ∧ (Engine.reset c).n = c.n ∧ (Engine.reset c).rmax = c.rmax ∧
    (∀ v, v < c.n →
      (Engine.reset c).plugboard.isPaired v = false ∧ (Engine.reset c).plugboard.partnerOf v = 0 ∧
      (Engine.reset c).reflector.isPaired v = false ∧ (Engine.reset c).reflector.partnerOf v = 0 ∧
      (Engine.reset c).staging.isWritten v = false ∧ (Engine.reset c).staging.entry v = 0) ∧
    (∀ k, k < c.rmax → (Engine.reset c).pl k = 0)

/-- R35 at reset, for every instance that exists; `State.reset` is the case of the reference instance (the model's
choice, log entry 1). -/
def Obligations.ResetStateIsSafe : Prop :=
  (∀ c : Instance, c.Valid → (State.resetOf c).Safe) ∧ State.reset.Safe

/-- R35: every step keeps the invariants. -/
def Obligations.EveryStepKeepsTheInvariants : Prop :=
  ∀ s t : State, s.Safe → step s = .next t → t.Safe

/-- R31, R266: no step changes `N` or `RMAX`. -/
def Obligations.InstanceConstantsNeverChange : Prop :=
  ∀ s t : State, step s = .next t → t.engine.inst = s.engine.inst

/-- R103, R22: no command but NEW changes the wiring of an installed rotor or uninstalls it. -/
def Obligations.InstalledWiringIsNeverModified : Prop :=
  ∀ (i : Instr) (s t : State), i ≠ .new → exec i s = .next t →
    s.engine.nrot ≤ t.engine.nrot ∧
    ∀ k, k < s.engine.nrot →
      (t.engine.slot k).fwd = (s.engine.slot k).fwd ∧ (t.engine.slot k).inv = (s.engine.slot k).inv

/-- R21, R30, R50: which commands write which part of the state; every other command leaves that part unchanged.
The positions are those of the rotors that were installed before the command. -/
def Obligations.OnlyTheNamedCommandsWriteEachPart : Prop :=
  ∀ (i : Instr) (s t : State), exec i s = .next t →
    (writesPositions i = false → ∀ k, k < s.engine.nrot → t.engine.pos k = s.engine.pos k) ∧
    (writesPlugboard i = false → t.engine.plugboard = s.engine.plugboard) ∧
    (writesReflector i = false → t.engine.reflector = s.engine.reflector) ∧
    (writesStaging i = false → t.engine.staging = s.engine.staging) ∧
    (writesPosList i = false → t.engine.posList = s.engine.posList) ∧
    (writesNrot i = false → t.engine.nrot = s.engine.nrot) ∧
    t.port.pending = s.port.pending

/-! ### Faults, over all commands -/

/-- R223: a step that answers a command with a fault response changes nothing but the port, which goes on to the
host's next event. -/
def Obligations.FaultingCommandsLeaveNoTrace : Prop :=
  ∀ (s t : State) (w r : Word) (rest : List HostEvent), s.port.pending = .command w :: rest → step s = .next t →
    t.port.responses = r :: s.port.responses → responseFault r = true →
    t.engine = s.engine ∧ t.port.pending = rest

/-- R232, R220: a command's response carries F = 0 and code 0, or F = 1 and the code of a fault of its row in the
fault matrix. -/
def Obligations.CommandsRaiseOnlyTheirRowOfTheFaultMatrix : Prop :=
  ∀ (i : Instr) (s t : State), exec i s = .next t →
    ∃ r, t.port.responses = r :: s.port.responses ∧
      ((responseFault r = false ∧ responseCode r = 0) ∨
       (responseFault r = true ∧ ∃ f ∈ mayRaise i, responseCode r = faultCode f))

/-- R34, R223, R235: the effect and the response of a command depend on the architectural state alone: not on what
was answered before, and not on what the host will do next. -/
def Obligations.CommandsDependOnTheEngineOnly : Prop :=
  ∀ (i : Instr) (s u t : State), s.engine = u.engine → exec i s = .next t →
    ∃ v r, exec i u = .next v ∧ v.engine = t.engine ∧ t.port.responses = r :: s.port.responses ∧
      v.port.responses = r :: u.port.responses

/-- R225, R231: every index operand is checked, before any other work on it, in the order `B` then `C`. -/
def Obligations.IndexOperandsOutOfRangeFault : Prop :=
  ∀ (s : State) (v w k : Nat) (t : Target), s.engine.n ≤ v →
    exec (.stg v w) s = .next (s.faulted .indexOutOfRange v) ∧
    (w < s.engine.n → exec (.stg w v) s = .next (s.faulted .indexOutOfRange v)) ∧
    exec (.con v w) s = .next (s.faulted .indexOutOfRange v) ∧
    (w < s.engine.n → exec (.con w v) s = .next (s.faulted .indexOutOfRange v)) ∧
    exec (.dis v) s = .next (s.faulted .indexOutOfRange v) ∧
    exec (.isp t v) s = .next (s.faulted .indexOutOfRange v) ∧
    exec (.plg v) s = .next (s.faulted .indexOutOfRange v) ∧
    exec (.rfe v) s = .next (s.faulted .indexOutOfRange v) ∧
    exec (.sen v) s = .next (s.faulted .indexOutOfRange v) ∧
    exec (.sde v) s = .next (s.faulted .indexOutOfRange v) ∧
    exec (.enc v) s = .next (s.faulted .indexOutOfRange v) ∧
    exec (.dec v) s = .next (s.faulted .indexOutOfRange v) ∧
    (k < s.engine.nrot →
      exec (.pfw k v) s = .next (s.faulted .indexOutOfRange v) ∧
      exec (.pin k v) s = .next (s.faulted .indexOutOfRange v) ∧
      exec (.ren k v) s = .next (s.faulted .indexOutOfRange v) ∧
      exec (.rde k v) s = .next (s.faulted .indexOutOfRange v))

/-- R229, R231: SlotError, before any index check: a slot that is not installed, a list slot `≥ RMAX`, and ROT with
every slot installed. -/
def Obligations.UnusableSlotsFault : Prop :=
  ∀ (s : State) (k v : Nat) (kind : PermKind),
    (s.engine.nrot ≤ k →
      exec (.pfw k v) s = .next (s.faulted .slot k) ∧ exec (.pin k v) s = .next (s.faulted .slot k) ∧
      exec (.ren k v) s = .next (s.faulted .slot k) ∧ exec (.rde k v) s = .next (s.faulted .slot k) ∧
      exec (.adv k) s = .next (s.faulted .slot k) ∧ exec (.spr k v) s = .next (s.faulted .slot k) ∧
      exec (.pos k) s = .next (s.faulted .slot k)) ∧
    (s.engine.rmax ≤ k → exec (.plw k v) s = .next (s.faulted .slot k)) ∧
    (s.engine.nrot = s.engine.rmax → exec (.rot kind) s = .next (s.faulted .slot s.engine.nrot))

/-! ### Permutation tables and staging -/

/-- R106, R107: STC clears every staging entry; STG writes one staging entry and leaves every other; neither touches
any other state. -/
def Obligations.StcAndStgWriteTheStagingBuffer : Prop :=
  ∀ s : State,
    (∃ g : Staging, exec .stc s = .next (s.answered { s.engine with staging := g } 0) ∧
      ∀ i, i < s.engine.n → g.isWritten i = false ∧ g.entry i = 0) ∧
    ∀ i d, s.Safe → i < s.engine.n → d < s.engine.n →
      ∃ g : Staging, exec (.stg i d) s = .next (s.answered { s.engine with staging := g } 0) ∧
        g.isWritten i = true ∧ g.entry i = d ∧
        ∀ j, j ≠ i → g.isWritten j = s.engine.staging.isWritten j ∧ g.entry j = s.engine.staging.entry j

/-- R108, R109: PFW and PIN read the two tables of an installed slot, whatever its position, and write nothing. -/
def Obligations.PfwAndPinReadTheWiring : Prop :=
  ∀ (s : State) (k i : Nat), k < s.engine.nrot → i < s.engine.n →
    exec (.pfw k i) s = .next (s.answered s.engine (s.engine.fwd k i)) ∧
    exec (.pin k i) s = .next (s.answered s.engine (s.engine.inv k i))

/-- R101: PIN of the result of PFW is the index, and PFW of the result of PIN is the index. -/
def Obligations.PermutationLookupsUndoEachOther : Prop :=
  ∀ (s : State) (k i : Nat), s.Safe → k < s.engine.nrot → i < s.engine.n →
    (∃ j, exec (.pfw k i) s = .next (s.answered s.engine j) ∧
      exec (.pin k j) s = .next (s.answered s.engine i)) ∧
    (∃ j, exec (.pin k i) s = .next (s.answered s.engine j) ∧
      exec (.pfw k j) s = .next (s.answered s.engine i))

/-! ### Pairing sets -/

/-- R126: CON of two unpaired indices pairs them in both directions, leaves every other index, and does not depend
on the order of its operands; `a = b` makes a self-pair. -/
def Obligations.ConPairsTwoUnpairedIndices : Prop :=
  ∀ (s : State) (a b : Nat), s.Safe → a < s.engine.n → b < s.engine.n →
    s.engine.plugboard.isPaired a = false → s.engine.plugboard.isPaired b = false →
    ∃ p : PairSet, exec (.con a b) s = .next (s.answered { s.engine with plugboard := p } 0) ∧
      exec (.con b a) s = .next (s.answered { s.engine with plugboard := p } 0) ∧
      p.isPaired a = true ∧ p.partnerOf a = b ∧ p.isPaired b = true ∧ p.partnerOf b = a ∧
      ∀ v, v ≠ a → v ≠ b →
        p.isPaired v = s.engine.plugboard.isPaired v ∧ p.partnerOf v = s.engine.plugboard.partnerOf v

/-- R226, R231: CON of an index already paired raises ConflictError, `a` before `b`, after the range checks. -/
def Obligations.ConOfAPairedIndexConflicts : Prop :=
  ∀ (s : State) (a b : Nat), a < s.engine.n → b < s.engine.n →
    (s.engine.plugboard.isPaired a = true → exec (.con a b) s = .next (s.faulted .conflict a)) ∧
    (s.engine.plugboard.isPaired a = false → s.engine.plugboard.isPaired b = true →
      exec (.con a b) s = .next (s.faulted .conflict b))

/-- R127: DIS unpairs both members of the pair and clears their partners, leaves every other index, and is a success
that changes nothing when the index is unpaired. -/
def Obligations.DisUnpairsBothMembers : Prop :=
  ∀ (s : State) (a : Nat), s.Safe → a < s.engine.n →
    (s.engine.plugboard.isPaired a = false → exec (.dis a) s = .next (s.answered s.engine 0)) ∧
    (s.engine.plugboard.isPaired a = true →
      ∃ p : PairSet, exec (.dis a) s = .next (s.answered { s.engine with plugboard := p } 0) ∧
        (∀ v, v = a ∨ v = s.engine.plugboard.partnerOf a → p.isPaired v = false ∧ p.partnerOf v = 0) ∧
        ∀ v, v ≠ a → v ≠ s.engine.plugboard.partnerOf a →
          p.isPaired v = s.engine.plugboard.isPaired v ∧ p.partnerOf v = s.engine.plugboard.partnerOf v)

/-- R128: ISP answers `256 + partner` for a paired index and 0 for an unpaired one, in either pairing set, and writes
nothing. -/
def Obligations.IspReportsThePairing : Prop :=
  ∀ (s : State) (v : Nat), v < s.engine.n →
    (s.engine.plugboard.isPaired v = true →
      exec (.isp .pb v) s = .next (s.answered s.engine (256 + s.engine.plugboard.partnerOf v))) ∧
    (s.engine.plugboard.isPaired v = false → exec (.isp .pb v) s = .next (s.answered s.engine 0)) ∧
    (s.engine.reflector.isPaired v = true →
      exec (.isp .rf v) s = .next (s.answered s.engine (256 + s.engine.reflector.partnerOf v))) ∧
    (s.engine.reflector.isPaired v = false → exec (.isp .rf v) s = .next (s.answered s.engine 0))

/-- R125, R130: PLG answers the partner of a paired index and the index itself when it is unpaired, and is its own
inverse. -/
def Obligations.PlgPassesUnpairedIndicesThrough : Prop :=
  ∀ (s : State) (v : Nat), v < s.engine.n →
    (s.engine.plugboard.isPaired v = true →
      exec (.plg v) s = .next (s.answered s.engine (s.engine.plugboard.partnerOf v))) ∧
    (s.engine.plugboard.isPaired v = false → exec (.plg v) s = .next (s.answered s.engine v)) ∧
    (s.Safe → ∃ u, u < s.engine.n ∧ exec (.plg v) s = .next (s.answered s.engine u) ∧
      exec (.plg u) s = .next (s.answered s.engine v))

/-- R132, R133, R227: RFE answers the partner of a paired index, and raises NotFoundError for an unpaired one; with a
reflector installed it is an involution without fixed points. -/
def Obligations.RfeReadsThePartner : Prop :=
  ∀ (s : State) (v : Nat), v < s.engine.n →
    (s.engine.reflector.isPaired v = true →
      exec (.rfe v) s = .next (s.answered s.engine (s.engine.reflector.partnerOf v))) ∧
    (s.engine.reflector.isPaired v = false → exec (.rfe v) s = .next (s.faulted .notFound v)) ∧
    (s.Safe → ¬ s.engine.reflector.Empty s.engine.n →
      ∃ u, u < s.engine.n ∧ u ≠ v ∧ exec (.rfe v) s = .next (s.answered s.engine u) ∧
        exec (.rfe u) s = .next (s.answered s.engine v))

/-- R134, R122: what the four kinds of PLB put in place of the whole plugboard; the staging buffer is taken as a
pairing when it is symmetric. -/
def Obligations.PlbReplacesThePlugboard : Prop :=
  ∀ s : State, s.Safe →
    (∃ p : PairSet, exec (.plb .emp) s = .next (s.answered { s.engine with plugboard := p } 0) ∧
      ∀ v, v < s.engine.n → p.isPaired v = false ∧ p.partnerOf v = 0) ∧
    (∃ p : PairSet, exec (.plb .mir) s = .next (s.answered { s.engine with plugboard := p } 0) ∧
      ∀ v, v < s.engine.n → p.isPaired v = true ∧ p.partnerOf v = v) ∧
    (∃ p : PairSet, exec (.plb .flp) s = .next (s.answered { s.engine with plugboard := p } 0) ∧
      ∀ v, v < s.engine.n → p.isPaired v = true ∧ p.partnerOf v = s.engine.n - 1 - v) ∧
    ((∀ v, v < s.engine.n → s.engine.staging.isWritten v = true →
        s.engine.staging.isWritten (s.engine.staging.entry v) = true ∧
        s.engine.staging.entry (s.engine.staging.entry v) = v) →
      ∃ p : PairSet, exec (.plb .stg) s = .next (s.answered { s.engine with plugboard := p } 0) ∧
        ∀ v, v < s.engine.n → p.isPaired v = s.engine.staging.isWritten v ∧
          p.partnerOf v = s.engine.staging.entry v)

/-- R123, R134, R196, R230: PLB STG and RFL STG of a staging buffer that is not symmetric raise InvariantError with
the smallest index at which the symmetry fails. -/
def Obligations.AsymmetricStagingIsRefused : Prop :=
  ∀ (s : State) (v : Nat), s.Safe → v < s.engine.n →
    (s.engine.staging.isWritten v = true ∧
      ¬ (s.engine.staging.isWritten (s.engine.staging.entry v) = true ∧
        s.engine.staging.entry (s.engine.staging.entry v) = v)) →
    (∀ u, u < v → s.engine.staging.isWritten u = true →
      s.engine.staging.isWritten (s.engine.staging.entry u) = true ∧
      s.engine.staging.entry (s.engine.staging.entry u) = u) →
    exec (.plb .stg) s = .next (s.faulted .invariant v) ∧ exec (.rflct .stg) s = .next (s.faulted .invariant v)

/-! ### Rotors -/

/-- R150, R151, R154, R155: REN and RDE of an installed slot at its position: the offset is added before the forward
table, and subtracted after the inverse table with `N` added first. -/
def Obligations.RenAndRdeUseTheOffset : Prop :=
  ∀ (s : State) (k v : Nat), k < s.engine.nrot → v < s.engine.n →
    exec (.ren k v) s = .next (s.answered s.engine (s.engine.fwd k ((v + s.engine.pos k) % s.engine.n))) ∧
    exec (.rde k v) s =
      .next (s.answered s.engine ((s.engine.inv k v + s.engine.n - s.engine.pos k) % s.engine.n))

/-- R158: at any position RDE undoes REN and REN undoes RDE, and both stay in range. -/
def Obligations.RotorRoundTripAtAnyPosition : Prop :=
  ∀ (s : State) (k v : Nat), s.Safe → k < s.engine.nrot → v < s.engine.n →
    (∃ u, u < s.engine.n ∧ exec (.ren k v) s = .next (s.answered s.engine u) ∧
      exec (.rde k u) s = .next (s.answered s.engine v)) ∧
    (∃ u, u < s.engine.n ∧ exec (.rde k v) s = .next (s.answered s.engine u) ∧
      exec (.ren k u) s = .next (s.answered s.engine v))

/-- R156, R157, R267: ADV moves one rotor by one position modulo `N` and answers the new position, SPR sets one
rotor's position to the raw position modulo `N`; neither carries into another rotor. -/
def Obligations.AdvAndSprMoveOneRotor : Prop :=
  ∀ (s : State) (k p : Nat), k < s.engine.nrot →
    (∃ e : Engine, exec (.adv k) s = .next (s.answered e ((s.engine.pos k + 1) % s.engine.n)) ∧
      s.engine.SameButPositions e ∧ e.pos k = (s.engine.pos k + 1) % s.engine.n ∧
      ∀ j, j ≠ k → e.slot j = s.engine.slot j) ∧
    (∃ e : Engine, exec (.spr k p) s = .next (s.answered e 0) ∧ s.engine.SameButPositions e ∧
      e.pos k = p % s.engine.n ∧ ∀ j, j ≠ k → e.slot j = s.engine.slot j)

/-- R153: every value the rotors and the stepper reduce is below `2N` and fits 9 bits, so one comparison and one
subtraction do the reduction. -/
def Obligations.ReductionIsOneCompareAndSubtract : Prop :=
  ∀ (e : Engine) (k v : Nat), e.Inv → k < e.nrot → v < e.n →
    (v + e.pos k < 2 * e.n ∧ v + e.pos k < 2 ^ 9 ∧
      (v + e.pos k) % e.n = if v + e.pos k < e.n then v + e.pos k else v + e.pos k - e.n) ∧
    (e.pos k ≤ e.inv k v + e.n ∧ e.inv k v + e.n < 2 ^ 9 ∧
      (e.inv k v + e.n - e.pos k) % e.n =
        if e.inv k v + e.n - e.pos k < e.n then e.inv k v + e.n - e.pos k else e.inv k v - e.pos k) ∧
    (e.pos k + 1 < 2 ^ 9 ∧ (e.pos k + 1) % e.n = if e.pos k + 1 < e.n then e.pos k + 1 else 0)

/-! ### The rotor stack -/

/-- R170, R171, R173, R174: SEN and SDE answer the stack functions at the current positions, advance no rotor and
write nothing; the stack functions visit slot 0 first on the way in and last on the way out, and are the identity on
a stack with no rotors. -/
def Obligations.SenAndSdeFoldInSlotOrder : Prop :=
  (∀ (s : State) (v : Nat), v < s.engine.n →
    exec (.sen v) s =
      .next (s.answered s.engine (stackEnc s.engine.n s.engine.rotors (s.engine.rotors.map (·.pos)) v)) ∧
    exec (.sde v) s =
      .next (s.answered s.engine (stackDec s.engine.n s.engine.rotors (s.engine.rotors.map (·.pos)) v))) ∧
  ∀ (n p v : Nat) (r : Rotor) (rs : List Rotor) (ps : List Nat),
    stackEnc n [] [] v = v ∧ stackDec n [] [] v = v ∧
    stackEnc n (r :: rs) (p :: ps) v = stackEnc n rs ps (readEntry r.fwd ((v + p) % n)) ∧
    stackDec n (r :: rs) (p :: ps) v = (readEntry r.inv (stackDec n rs ps v) + n - p) % n

/-- R172: SDE undoes SEN and SEN undoes SDE, both stay in range, and with no rotor both are the identity. -/
def Obligations.StackRoundTrip : Prop :=
  ∀ (s : State) (v : Nat), s.Safe → v < s.engine.n →
    (∃ u, u < s.engine.n ∧ exec (.sen v) s = .next (s.answered s.engine u) ∧
      exec (.sde u) s = .next (s.answered s.engine v)) ∧
    (∃ u, u < s.engine.n ∧ exec (.sde v) s = .next (s.answered s.engine u) ∧
      exec (.sen u) s = .next (s.answered s.engine v)) ∧
    (s.engine.nrot = 0 →
      exec (.sen v) s = .next (s.answered s.engine v) ∧ exec (.sde v) s = .next (s.answered s.engine v))

/-- R175, R176, R177: STP advances rotor `j` exactly when every rotor below it was at `N-1` before the step, each
from its position before the step; nothing else changes and the carry out of the last rotor is dropped. -/
def Obligations.StpIsTheOdometerStep : Prop :=
  ∀ s : State, ∃ e : Engine, exec .stp s = .next (s.answered e 0) ∧ s.engine.SameButPositions e ∧
    ∀ j, j < s.engine.nrot →
      (s.engine.advances j → e.pos j = (s.engine.pos j + 1) % s.engine.n) ∧
      (¬ s.engine.advances j → e.pos j = s.engine.pos j)

/-- R178: STP adds one, modulo `N^NROT`, to the positions read as a number in base `N`. -/
def Obligations.StpAddsOneToTheOdometer : Prop :=
  ∀ s : State, s.Safe → ∃ e : Engine, exec .stp s = .next (s.answered e 0) ∧
    odometerValue e.n e.positions = (odometerValue s.engine.n s.engine.positions + 1) % s.engine.n ^ s.engine.nrot

/-- R178, of the stepping function of R176 itself: it adds one to the number; (a) it returns to a vector after
`N^NROT` steps and after no smaller positive number; (b) in `N` steps rotor 0 returns to where it started and exactly
one of them carries into rotor 1, so the rest of the stack is stepped once; (c) in `N²` steps rotor 1 returns as well
and exactly one of them carries into rotor 2. -/
def Obligations.OdometerPeriods : Prop :=
  ∀ (n p q : Nat) (ps qs : List Nat), 1 ≤ n → p < n → q < n → (∀ x ∈ ps, x < n) → (∀ x ∈ qs, x < n) →
    odometerValue n (stackAdvance n ps) = (odometerValue n ps + 1) % n ^ ps.length ∧
    (stackAdvance n)^[n ^ ps.length] ps = ps ∧
    (∀ m, 0 < m → m < n ^ ps.length → (stackAdvance n)^[m] ps ≠ ps) ∧
    (stackAdvance n)^[n] (p :: ps) = p :: stackAdvance n ps ∧
    (∃! m, m < n ∧ ((stackAdvance n)^[m] (p :: ps)).take 1 = [n - 1]) ∧
    (stackAdvance n)^[n * n] (p :: q :: qs) = p :: q :: stackAdvance n qs ∧
    (∃! m, m < n * n ∧ ((stackAdvance n)^[m] (p :: q :: qs)).take 2 = [n - 1, n - 1])

/-- R180: PLW stores the raw position, not reduced, in one element of the list, installed or not. -/
def Obligations.PlwWritesOneListElement : Prop :=
  ∀ (s : State) (k p : Nat), s.Safe → k < s.engine.rmax →
    ∃ l : List Nat, exec (.plw k p) s = .next (s.answered { s.engine with posList := l } 0) ∧
      readEntry l k = p ∧ ∀ j, j ≠ k → readEntry l j = s.engine.pl j

/-- R181, R228: SPS of the right length sets every installed rotor to its list element modulo `N`; any other length
raises SizeMismatchError with `info = NROT`. -/
def Obligations.SpsAppliesTheListOfTheRightLength : Prop :=
  ∀ (s : State) (len : Nat),
    (len = s.engine.nrot → ∃ e : Engine, exec (.sps len) s = .next (s.answered e 0) ∧ s.engine.SameButPositions e ∧
      ∀ k, k < s.engine.nrot → e.pos k = s.engine.pl k % s.engine.n) ∧
    (len ≠ s.engine.nrot → exec (.sps len) s = .next (s.faulted .sizeMismatch s.engine.nrot))

/-- R182, R202: RSP and RST set every installed position to 0, leave everything else, and are the same effect. -/
def Obligations.RspAndRstZeroThePositions : Prop :=
  ∀ s : State, ∃ e : Engine, exec .rsp s = .next (s.answered e 0) ∧ exec .rst s = .next (s.answered e 0) ∧
    s.engine.SameButPositions e ∧ ∀ k, k < s.engine.nrot → e.pos k = 0

/-! ### Construction -/

/-- R190: the architectural state after NEW is exactly the reset state of the instance. -/
def Obligations.NewGivesTheResetState : Prop :=
  ∀ s : State, exec .new s = .next (s.answered (Engine.reset s.engine.inst) 0)

/-- R191, R179: INF answers `N`, `NROT` or `RMAX`, and POS the position of an installed slot; neither writes
anything. -/
def Obligations.InfAndPosReadTheRegisters : Prop :=
  ∀ s : State,
    exec (.inf .n) s = .next (s.answered s.engine s.engine.inst.n) ∧
    exec (.inf .nrot) s = .next (s.answered s.engine s.engine.rotors.length) ∧
    exec (.inf .rmax) s = .next (s.answered s.engine s.engine.inst.rmax) ∧
    ∀ k, k < s.engine.nrot → exec (.pos k) s = .next (s.answered s.engine (s.engine.pos k))

/-- R194, R104, R110: ROT with a free slot puts a rotor on top of the stack at position 0 with its derived inverse,
and answers the slot: ascending, descending, or the staged table when it has no gap and no repeat. -/
def Obligations.RotAppendsARotor : Prop :=
  ∀ s : State, s.Safe → s.engine.nrot < s.engine.rmax →
    (∃ e : Engine, exec (.rot .asc) s = .next (s.answered e s.engine.nrot) ∧ s.engine.Appended e fun i => i) ∧
    (∃ e : Engine, exec (.rot .dsc) s = .next (s.answered e s.engine.nrot) ∧
      s.engine.Appended e fun i => s.engine.n - 1 - i) ∧
    ((∀ i, i < s.engine.n → s.engine.staging.isWritten i = true) →
      (∀ i j, i < s.engine.n → j < i → s.engine.staging.entry j ≠ s.engine.staging.entry i) →
      ∃ e : Engine, exec (.rot .stg) s = .next (s.answered e s.engine.nrot) ∧
      s.engine.Appended e s.engine.staging.entry)

/-- R104, R222, R230: ROT STG of a staging buffer that is no permutation raises InvariantError: the smallest entry
never written if there is one, otherwise the smallest entry that repeats an earlier value. -/
def Obligations.RotRefusesAStagedTableThatIsNoPermutation : Prop :=
  ∀ (s : State) (i : Nat), s.engine.nrot ≠ s.engine.rmax → i < s.engine.n →
    (s.engine.staging.isWritten i = false → (∀ j, j < i → s.engine.staging.isWritten j = true) →
      exec (.rot .stg) s = .next (s.faulted .invariant i)) ∧
    ((∀ j, j < s.engine.n → s.engine.staging.isWritten j = true) →
      (∃ j, j < i ∧ s.engine.staging.entry j = s.engine.staging.entry i) →
      (∀ h j, h < i → j < h → s.engine.staging.entry j ≠ s.engine.staging.entry h) →
      exec (.rot .stg) s = .next (s.faulted .invariant i))

/-- R196, R135: RFL FLP installs `v` paired with `N-1-v` when `N` is even, and RFL STG installs a staged pairing that
is total, symmetric and without fixed points; the old reflector is replaced whole. -/
def Obligations.RflInstallsALegalReflector : Prop :=
  ∀ s : State, s.Safe →
    (s.engine.n % 2 = 0 →
      ∃ r : PairSet, exec (.rflct .flp) s = .next (s.answered { s.engine with reflector := r } 0) ∧
        ∀ v, v < s.engine.n → r.isPaired v = true ∧ r.partnerOf v = s.engine.n - 1 - v) ∧
    ((∀ v, v < s.engine.n → s.engine.staging.isWritten v = true ∧ s.engine.staging.entry v ≠ v ∧
        s.engine.staging.entry (s.engine.staging.entry v) = v) →
      ∃ r : PairSet, exec (.rflct .stg) s = .next (s.answered { s.engine with reflector := r } 0) ∧
        ∀ v, v < s.engine.n → r.isPaired v = true ∧ r.partnerOf v = s.engine.staging.entry v)

/-- R195, R196, R135, R136: RFL EMP and RFL MIR always raise InvariantError with info 0, RFL FLP with the middle index
when `N` is odd, and RFL STG of a symmetric staging buffer with the smallest index that is unpaired or self-paired. -/
def Obligations.RflRefusesAnIllegalReflector : Prop :=
  ∀ s : State, s.Safe →
    exec (.rflct .emp) s = .next (s.faulted .invariant 0) ∧
    exec (.rflct .mir) s = .next (s.faulted .invariant 0) ∧
    (s.engine.n % 2 = 1 → exec (.rflct .flp) s = .next (s.faulted .invariant ((s.engine.n - 1) / 2))) ∧
    (∀ v, v < s.engine.n →
      (∀ u, u < s.engine.n → s.engine.staging.isWritten u = true →
        s.engine.staging.isWritten (s.engine.staging.entry u) = true ∧
        s.engine.staging.entry (s.engine.staging.entry u) = u) →
      (s.engine.staging.isWritten v = false ∨ s.engine.staging.entry v = v) →
      (∀ u, u < v → s.engine.staging.isWritten u = true ∧ s.engine.staging.entry u ≠ u) →
      exec (.rflct .stg) s = .next (s.faulted .invariant v))

/-- R27, R196, R255: no reflector can ever stand in an instance with odd `N`: in a safe state whose reflector is not
empty, `N` is even. -/
def Obligations.AReflectorNeedsEvenN : Prop :=
  ∀ s : State, s.Safe → ¬ s.engine.reflector.Empty s.engine.n → s.engine.n % 2 = 0

/-! ### The encode path -/

/-- R197, R198, R200, R201: with a reflector installed ENC and DEC step the stack once as STP does, then run plugboard,
stack, reflector, stack back, plugboard with the STEPPED positions; nothing but positions changes, every value on the
path is in range (R199), and the result is never the operand (R204). -/
def Obligations.EncAndDecStepThenRunThePath : Prop :=
  ∀ (s : State) (v : Nat), s.Safe → ¬ s.engine.reflector.Empty s.engine.n → v < s.engine.n →
    ∃ (e : Engine) (x0 x1 x2 x3 x4 : Nat),
      exec (.enc v) s = .next (s.answered e x4) ∧ exec (.dec v) s = .next (s.answered e x4) ∧
      exec .stp s = .next (s.answered e 0) ∧ s.engine.SameButPositions e ∧
      x0 = (if s.engine.plugboard.isPaired v then s.engine.plugboard.partnerOf v else v) ∧
      x1 = stackEnc s.engine.n s.engine.rotors e.positions x0 ∧
      x2 = s.engine.reflector.partnerOf x1 ∧
      x3 = stackDec s.engine.n s.engine.rotors e.positions x2 ∧
      x4 = (if s.engine.plugboard.isPaired x3 then s.engine.plugboard.partnerOf x3 else x3) ∧
      x0 < s.engine.n ∧ x1 < s.engine.n ∧ x2 < s.engine.n ∧ x3 < s.engine.n ∧ x4 < s.engine.n ∧ x4 ≠ v

/-- R201: DEC is ENC, on every state and operand. -/
def Obligations.DecIsEnc : Prop :=
  ∀ (s : State) (v : Nat), exec (.dec v) s = exec (.enc v) s

/-- R200, R222, R227, R263: without a reflector ENC and DEC raise NotFoundError with the index presented to the
reflector at the stepped positions, and no rotor moves. -/
def Obligations.EncWithoutReflectorFaultsAndDoesNotStep : Prop :=
  ∀ (s t : State) (v : Nat), s.engine.reflector.Empty s.engine.n → s.Safe → v < s.engine.n →
    exec .stp s = .next t →
    ∃ x1, x1 < s.engine.n ∧
      x1 = stackEnc s.engine.n s.engine.rotors t.engine.positions
        (if s.engine.plugboard.isPaired v then s.engine.plugboard.partnerOf v else v) ∧
      exec (.enc v) s = .next (s.faulted .notFound x1) ∧ exec (.dec v) s = .next (s.faulted .notFound x1)

/-- R203: at fixed positions the composed function is its own inverse and has no fixed point (R204). -/
def Obligations.ThePathIsReciprocalAtFixedPositions : Prop :=
  ∀ (e : Engine) (p : List Nat) (v : Nat), e.Inv → ¬ e.reflector.Empty e.n → p.length = e.nrot →
    (∀ q ∈ p, q < e.n) → v < e.n →
    e.machineEnc p v < e.n ∧ e.machineEnc p v ≠ v ∧ e.machineEnc p (e.machineEnc p v) = v

/-- R205: a message encoded index by index comes back when the positions are brought back to those of the start with
wirings, plugboard and reflector unchanged and the result is entered the same way, by ENC or by DEC; and RST brings
them back when they were all zero. -/
def Obligations.MessagesAreReciprocal : Prop :=
  ∀ (s : State) (m : List Nat), s.Safe → ¬ s.engine.reflector.Empty s.engine.n → (∀ x ∈ m, x < s.engine.n) →
    ∃ (t : State) (c : List Nat), issueAll (m.map .enc) s = .next t ∧ c.length = m.length ∧
      (∀ x ∈ c, x < s.engine.n) ∧
      t.port.responses = (c.map successResponse).reverse ++ s.port.responses ∧
      (∀ u : State,
        u.engine = { s.engine with staging := u.engine.staging, posList := u.engine.posList } →
        (∃ u', issueAll (c.map .enc) u = .next u' ∧
          u'.port.responses = (m.map successResponse).reverse ++ u.port.responses) ∧
        (∃ u', issueAll (c.map .dec) u = .next u' ∧
          u'.port.responses = (m.map successResponse).reverse ++ u.port.responses)) ∧
      ((∀ k, k < s.engine.nrot → s.engine.pos k = 0) →
        ∃ u, exec .rst t = .next u ∧ u.engine = s.engine)

/-! ### Pseudo-commands -/

/-- R83: TBL with `N` values in range stages the whole table, one success response for each of its commands, and
changes nothing else. -/
def Obligations.TblStagesTheWholeTable : Prop :=
  ∀ (s : State) (ds : List Nat), s.Safe → ds.length = s.engine.n → (∀ d ∈ ds, d < s.engine.n) →
    ∃ (t : State) (g : Staging), issueAll (expandPseudo (.tbl ds)) s = .next t ∧
      t.engine = { s.engine with staging := g } ∧
      t.port.responses = List.replicate (s.engine.n + 1) (successResponse 0) ++ s.port.responses ∧
      ∀ i, i < s.engine.n → g.isWritten i = true ∧ g.entry i = readEntry ds i

/-- R83, R181: SETPOS with one position for each installed rotor sets every position to its value modulo `N`, and RRS
sets one rotor's position to 0. -/
def Obligations.SetposAndRrsSetPositions : Prop :=
  ∀ (s : State) (ps : List Nat) (k : Nat), s.Safe → ps.length = s.engine.nrot →
    (∃ t, issueAll (expandPseudo (.setpos ps)) s = .next t ∧
      (∀ j, j < s.engine.nrot → t.engine.pos j = readEntry ps j % s.engine.n) ∧
      s.engine.SameButPositions { t.engine with posList := s.engine.posList }) ∧
    (k < s.engine.nrot → ∃ e, issueAll (expandPseudo (.rrs k)) s = .next (s.answered e 0) ∧
      s.engine.SameButPositions e ∧ e.pos k = 0 ∧ ∀ j, j ≠ k → e.slot j = s.engine.slot j)

/-- R83, R265: PRS of pairs no two of which share an index stages every pair in both directions and leaves every other
entry clear. -/
def Obligations.PrsStagesPairsInBothDirections : Prop :=
  ∀ (s : State) (ps : List (Nat × Nat)), s.Safe → (∀ ab ∈ ps, ab.1 < s.engine.n ∧ ab.2 < s.engine.n) →
    ps.Pairwise (fun x y => x.1 ≠ y.1 ∧ x.1 ≠ y.2 ∧ x.2 ≠ y.1 ∧ x.2 ≠ y.2) →
    ∃ (t : State) (g : Staging), issueAll (expandPseudo (.prs ps)) s = .next t ∧
      t.engine = { s.engine with staging := g } ∧
      (∀ ab ∈ ps, g.isWritten ab.1 = true ∧ g.entry ab.1 = ab.2 ∧ g.isWritten ab.2 = true ∧ g.entry ab.2 = ab.1) ∧
      ∀ v, v < s.engine.n → (∀ ab ∈ ps, v ≠ ab.1 ∧ v ≠ ab.2) → g.isWritten v = false ∧ g.entry v = 0
end

