-- ==== Sys2Proof/Laws/PerInstr.lean ====
section
/-! SUPPORT. The encoding of each command, one lemma per constructor of `Instr`: a well-formed command's word
decodes to it (R71, R77, R79, R81). -/

namespace Sys2Proof

/-! ### The fields of a packed word -/

theorem fieldOpc_packWord (o a b c : Nat) : fieldOpc (packWord o a b c) = o % 256 := by
  have h : (packWord o a b c).extractLsb' 24 8 = BitVec.ofNat 8 o := by
    apply BitVec.eq_of_getLsbD_eq
    intro i hi
    simp only [packWord, BitVec.getLsbD_extractLsb', BitVec.getLsbD_append]
    simp [hi, show ¬ 24 + i < 8 by omega, show ¬ 24 + i - 8 < 8 by omega, show ¬ 24 + i - 8 - 8 < 8 by omega,
      show 24 + i - 8 - 8 - 8 = i by omega]
  simp [fieldOpc, h]

theorem fieldA_packWord (o a b c : Nat) : fieldA (packWord o a b c) = a % 256 := by
  have h : (packWord o a b c).extractLsb' 16 8 = BitVec.ofNat 8 a := by
    apply BitVec.eq_of_getLsbD_eq
    intro i hi
    simp only [packWord, BitVec.getLsbD_extractLsb', BitVec.getLsbD_append]
    simp [hi, show ¬ 16 + i < 8 by omega, show ¬ 16 + i - 8 < 8 by omega, show 16 + i - 8 - 8 = i by omega]
  simp [fieldA, h]

theorem fieldB_packWord (o a b c : Nat) : fieldB (packWord o a b c) = b % 256 := by
  have h : (packWord o a b c).extractLsb' 8 8 = BitVec.ofNat 8 b := by
    apply BitVec.eq_of_getLsbD_eq
    intro i hi
    simp only [packWord, BitVec.getLsbD_extractLsb', BitVec.getLsbD_append]
    simp [hi, show ¬ 8 + i < 8 by omega, show 8 + i - 8 = i by omega]
  simp [fieldB, h]

theorem fieldC_packWord (o a b c : Nat) : fieldC (packWord o a b c) = c % 256 := by
  have h : (packWord o a b c).extractLsb' 0 8 = BitVec.ofNat 8 c := by
    apply BitVec.eq_of_getLsbD_eq
    intro i hi
    simp only [packWord, BitVec.getLsbD_extractLsb', BitVec.getLsbD_append]
    simp [hi]
  simp [fieldC, h]

/-- The four fields of a packed word are the four values, when they are 8-bit values. -/
theorem fields_packWord {o a b c : Nat} (ho : o < 256) (ha : a < 256) (hb : b < 256) (hc : c < 256) :
    fieldOpc (packWord o a b c) = o ∧ fieldA (packWord o a b c) = a ∧ fieldB (packWord o a b c) = b ∧
      fieldC (packWord o a b c) = c := by
  rw [fieldOpc_packWord, fieldA_packWord, fieldB_packWord, fieldC_packWord]
  exact ⟨Nat.mod_eq_of_lt ho, Nat.mod_eq_of_lt ha, Nat.mod_eq_of_lt hb, Nat.mod_eq_of_lt hc⟩

/-- A well-formed operand is an 8-bit value. -/
theorem operandOk_iff {v : Nat} : operandOk v = true ↔ v < 256 := by simp [operandOk]

theorem packWord_formatZ (o : Nat) (i : Instr) : formatZ (packWord o 0 0 0) i = .ok i := by
  simp [formatZ, fieldA_packWord, fieldB_packWord, fieldC_packWord]

theorem packWord_formatC (o : Nat) {c : Nat} (f : Nat → Option Instr) (hc : c < 256) :
    formatC (packWord o 0 0 c) f = orReserved (f c) := by
  simp [formatC, fieldA_packWord, fieldB_packWord, fieldC_packWord, Nat.mod_eq_of_lt hc]

theorem packWord_formatA (o : Nat) {a : Nat} (f : Nat → Instr) (ha : a < 256) :
    formatA (packWord o a 0 0) f = .ok (f a) := by
  simp [formatA, fieldA_packWord, fieldB_packWord, fieldC_packWord, Nat.mod_eq_of_lt ha]

theorem packWord_formatAC (o : Nat) {a c : Nat} (f : Nat → Nat → Option Instr) (ha : a < 256) (hc : c < 256) :
    formatAC (packWord o a 0 c) f = orReserved (f a c) := by
  simp [formatAC, fieldA_packWord, fieldB_packWord, fieldC_packWord, Nat.mod_eq_of_lt ha, Nat.mod_eq_of_lt hc]

theorem packWord_formatBC (o : Nat) {b c : Nat} (f : Nat → Nat → Instr) (hb : b < 256) (hc : c < 256) :
    formatBC (packWord o 0 b c) f = .ok (f b c) := by
  simp [formatBC, fieldA_packWord, fieldB_packWord, fieldC_packWord, Nat.mod_eq_of_lt hb, Nat.mod_eq_of_lt hc]

end Sys2Proof

/-- The encoding family: a well-formed command's word decodes to it. -/
def Sys2Proof.Laws.EncodingRoundTrip.Statement (i : Sys2Proof.Instr) : Prop :=
  i.WellFormed → Sys2Proof.decode (Sys2Proof.encode i) = .ok i

open Sys2Proof

theorem Sys2Proof.Laws.EncodingRoundTrip.new :
    Sys2Proof.Laws.EncodingRoundTrip.Statement .new := by
  intro _
  simp only [decode, encode, fieldOpc_packWord]
  exact packWord_formatZ _ _

theorem Sys2Proof.Laws.EncodingRoundTrip.inf (sel : InfSel) :
    Sys2Proof.Laws.EncodingRoundTrip.Statement (.inf sel) := by
  intro _
  cases sel <;>
  · simp only [decode, encode, fieldOpc_packWord]
    exact packWord_formatC _ _ (by decide)

theorem Sys2Proof.Laws.EncodingRoundTrip.stc :
    Sys2Proof.Laws.EncodingRoundTrip.Statement .stc := by
  intro _
  simp only [decode, encode, fieldOpc_packWord]
  exact packWord_formatZ _ _

theorem Sys2Proof.Laws.EncodingRoundTrip.stg (i : Nat) (d : Nat) :
    Sys2Proof.Laws.EncodingRoundTrip.Statement (.stg i d) := by
  intro h
  have h := (Bool.and_eq_true_iff.mp h).imp operandOk_iff.mp operandOk_iff.mp
  simp only [decode, encode, fieldOpc_packWord]
  exact packWord_formatBC _ _ h.1 h.2

theorem Sys2Proof.Laws.EncodingRoundTrip.pfw (k : Nat) (i : Nat) :
    Sys2Proof.Laws.EncodingRoundTrip.Statement (.pfw k i) := by
  intro h
  have h := (Bool.and_eq_true_iff.mp h).imp operandOk_iff.mp operandOk_iff.mp
  simp only [decode, encode, fieldOpc_packWord]
  exact packWord_formatAC _ _ h.1 h.2

theorem Sys2Proof.Laws.EncodingRoundTrip.pin (k : Nat) (i : Nat) :
    Sys2Proof.Laws.EncodingRoundTrip.Statement (.pin k i) := by
  intro h
  have h := (Bool.and_eq_true_iff.mp h).imp operandOk_iff.mp operandOk_iff.mp
  simp only [decode, encode, fieldOpc_packWord]
  exact packWord_formatAC _ _ h.1 h.2

theorem Sys2Proof.Laws.EncodingRoundTrip.con (a : Nat) (b : Nat) :
    Sys2Proof.Laws.EncodingRoundTrip.Statement (.con a b) := by
  intro h
  have h := (Bool.and_eq_true_iff.mp h).imp operandOk_iff.mp operandOk_iff.mp
  simp only [decode, encode, fieldOpc_packWord]
  exact packWord_formatBC _ _ h.1 h.2

theorem Sys2Proof.Laws.EncodingRoundTrip.dis (a : Nat) :
    Sys2Proof.Laws.EncodingRoundTrip.Statement (.dis a) := by
  intro h
  simp only [decode, encode, fieldOpc_packWord]
  exact packWord_formatC _ _ (operandOk_iff.mp h)

theorem Sys2Proof.Laws.EncodingRoundTrip.isp (t : Target) (v : Nat) :
    Sys2Proof.Laws.EncodingRoundTrip.Statement (.isp t v) := by
  intro h
  cases t <;>
  · simp only [decode, encode, fieldOpc_packWord]
    exact packWord_formatAC _ _ (by decide) (operandOk_iff.mp h)

theorem Sys2Proof.Laws.EncodingRoundTrip.plg (v : Nat) :
    Sys2Proof.Laws.EncodingRoundTrip.Statement (.plg v) := by
  intro h
  simp only [decode, encode, fieldOpc_packWord]
  exact packWord_formatC _ _ (operandOk_iff.mp h)

theorem Sys2Proof.Laws.EncodingRoundTrip.rfe (v : Nat) :
    Sys2Proof.Laws.EncodingRoundTrip.Statement (.rfe v) := by
  intro h
  simp only [decode, encode, fieldOpc_packWord]
  exact packWord_formatC _ _ (operandOk_iff.mp h)

theorem Sys2Proof.Laws.EncodingRoundTrip.plb (kind : PairKind) :
    Sys2Proof.Laws.EncodingRoundTrip.Statement (.plb kind) := by
  intro _
  cases kind <;>
  · simp only [decode, encode, fieldOpc_packWord]
    exact packWord_formatC _ _ (by decide)

theorem Sys2Proof.Laws.EncodingRoundTrip.ren (k : Nat) (v : Nat) :
    Sys2Proof.Laws.EncodingRoundTrip.Statement (.ren k v) := by
  intro h
  have h := (Bool.and_eq_true_iff.mp h).imp operandOk_iff.mp operandOk_iff.mp
  simp only [decode, encode, fieldOpc_packWord]
  exact packWord_formatAC _ _ h.1 h.2

theorem Sys2Proof.Laws.EncodingRoundTrip.rde (k : Nat) (v : Nat) :
    Sys2Proof.Laws.EncodingRoundTrip.Statement (.rde k v) := by
  intro h
  have h := (Bool.and_eq_true_iff.mp h).imp operandOk_iff.mp operandOk_iff.mp
  simp only [decode, encode, fieldOpc_packWord]
  exact packWord_formatAC _ _ h.1 h.2

theorem Sys2Proof.Laws.EncodingRoundTrip.adv (k : Nat) :
    Sys2Proof.Laws.EncodingRoundTrip.Statement (.adv k) := by
  intro h
  simp only [decode, encode, fieldOpc_packWord]
  exact packWord_formatA _ _ (operandOk_iff.mp h)

theorem Sys2Proof.Laws.EncodingRoundTrip.spr (k : Nat) (p : Nat) :
    Sys2Proof.Laws.EncodingRoundTrip.Statement (.spr k p) := by
  intro h
  have h := (Bool.and_eq_true_iff.mp h).imp operandOk_iff.mp operandOk_iff.mp
  simp only [decode, encode, fieldOpc_packWord]
  exact packWord_formatAC _ _ h.1 h.2

theorem Sys2Proof.Laws.EncodingRoundTrip.sen (v : Nat) :
    Sys2Proof.Laws.EncodingRoundTrip.Statement (.sen v) := by
  intro h
  simp only [decode, encode, fieldOpc_packWord]
  exact packWord_formatC _ _ (operandOk_iff.mp h)

theorem Sys2Proof.Laws.EncodingRoundTrip.sde (v : Nat) :
    Sys2Proof.Laws.EncodingRoundTrip.Statement (.sde v) := by
  intro h
  simp only [decode, encode, fieldOpc_packWord]
  exact packWord_formatC _ _ (operandOk_iff.mp h)

theorem Sys2Proof.Laws.EncodingRoundTrip.stp :
    Sys2Proof.Laws.EncodingRoundTrip.Statement .stp := by
  intro _
  simp only [decode, encode, fieldOpc_packWord]
  exact packWord_formatZ _ _

theorem Sys2Proof.Laws.EncodingRoundTrip.pos (k : Nat) :
    Sys2Proof.Laws.EncodingRoundTrip.Statement (.pos k) := by
  intro h
  simp only [decode, encode, fieldOpc_packWord]
  exact packWord_formatA _ _ (operandOk_iff.mp h)

theorem Sys2Proof.Laws.EncodingRoundTrip.plw (k : Nat) (p : Nat) :
    Sys2Proof.Laws.EncodingRoundTrip.Statement (.plw k p) := by
  intro h
  have h := (Bool.and_eq_true_iff.mp h).imp operandOk_iff.mp operandOk_iff.mp
  simp only [decode, encode, fieldOpc_packWord]
  exact packWord_formatAC _ _ h.1 h.2

theorem Sys2Proof.Laws.EncodingRoundTrip.sps (len : Nat) :
    Sys2Proof.Laws.EncodingRoundTrip.Statement (.sps len) := by
  intro h
  simp only [decode, encode, fieldOpc_packWord]
  exact packWord_formatC _ _ (operandOk_iff.mp h)

theorem Sys2Proof.Laws.EncodingRoundTrip.rsp :
    Sys2Proof.Laws.EncodingRoundTrip.Statement .rsp := by
  intro _
  simp only [decode, encode, fieldOpc_packWord]
  exact packWord_formatZ _ _

theorem Sys2Proof.Laws.EncodingRoundTrip.rot (kind : PermKind) :
    Sys2Proof.Laws.EncodingRoundTrip.Statement (.rot kind) := by
  intro _
  cases kind <;>
  · simp only [decode, encode, fieldOpc_packWord]
    exact packWord_formatC _ _ (by decide)

theorem Sys2Proof.Laws.EncodingRoundTrip.rflct (kind : PairKind) :
    Sys2Proof.Laws.EncodingRoundTrip.Statement (.rflct kind) := by
  intro _
  cases kind <;>
  · simp only [decode, encode, fieldOpc_packWord]
    exact packWord_formatC _ _ (by decide)

theorem Sys2Proof.Laws.EncodingRoundTrip.enc (v : Nat) :
    Sys2Proof.Laws.EncodingRoundTrip.Statement (.enc v) := by
  intro h
  simp only [decode, encode, fieldOpc_packWord]
  exact packWord_formatC _ _ (operandOk_iff.mp h)

theorem Sys2Proof.Laws.EncodingRoundTrip.dec (v : Nat) :
    Sys2Proof.Laws.EncodingRoundTrip.Statement (.dec v) := by
  intro h
  simp only [decode, encode, fieldOpc_packWord]
  exact packWord_formatC _ _ (operandOk_iff.mp h)

theorem Sys2Proof.Laws.EncodingRoundTrip.rst :
    Sys2Proof.Laws.EncodingRoundTrip.Statement .rst := by
  intro _
  simp only [decode, encode, fieldOpc_packWord]
  exact packWord_formatZ _ _
end

