-- ==== Sys2Proof/Laws/Decoding.lean ====
section
/-! SUPPORT. What the decoder's formats accept, and a word from its fields. -/

namespace Sys2Proof

theorem fieldOpc_lt (w : Word) : fieldOpc w < 256 := BitVec.isLt _
theorem fieldA_lt (w : Word) : fieldA w < 256 := BitVec.isLt _
theorem fieldB_lt (w : Word) : fieldB w < 256 := BitVec.isLt _
theorem fieldC_lt (w : Word) : fieldC w < 256 := BitVec.isLt _

/-- A word is its four fields (R71). -/
theorem packWord_fields (w : Word) : packWord (fieldOpc w) (fieldA w) (fieldB w) (fieldC w) = w := by
  simp only [packWord, fieldOpc, fieldA, fieldB, fieldC, BitVec.ofNat_toNat, BitVec.setWidth_eq]
  apply BitVec.eq_of_getLsbD_eq
  intro i hi
  simp only [BitVec.getLsbD_extractLsb', BitVec.getLsbD_append]
  by_cases h1 : i < 8
  · simp [h1]
  · by_cases h2 : i - 8 < 8
    · simp [h1, h2, show 8 + (i - 8) = i by omega]
    · by_cases h3 : i - 8 - 8 < 8
      · simp [h1, h2, h3, show 16 + (i - 8 - 8) = i by omega]
      · simp [h1, h2, h3, show i - 8 - 8 - 8 < 8 by omega, show 24 + (i - 8 - 8 - 8) = i by omega]

theorem orReserved_eq_ok {r : Option Instr} {i : Instr} : orReserved r = .ok i ↔ r = some i := by
  cases r <;> simp [orReserved]

theorem formatZ_eq_ok {w : Word} {i j : Instr} :
    formatZ w i = .ok j ↔ (fieldA w = 0 ∧ fieldB w = 0 ∧ fieldC w = 0) ∧ i = j := by
  unfold formatZ; split <;> simp_all

theorem formatC_eq_ok {w : Word} {f : Nat → Option Instr} {j : Instr} :
    formatC w f = .ok j ↔ (fieldA w = 0 ∧ fieldB w = 0) ∧ f (fieldC w) = some j := by
  unfold formatC; split <;> simp_all [orReserved_eq_ok]

theorem formatA_eq_ok {w : Word} {f : Nat → Instr} {j : Instr} :
    formatA w f = .ok j ↔ (fieldB w = 0 ∧ fieldC w = 0) ∧ f (fieldA w) = j := by
  unfold formatA; split <;> simp_all

theorem formatAC_eq_ok {w : Word} {f : Nat → Nat → Option Instr} {j : Instr} :
    formatAC w f = .ok j ↔ fieldB w = 0 ∧ f (fieldA w) (fieldC w) = some j := by
  unfold formatAC; split <;> simp_all [orReserved_eq_ok]

theorem formatBC_eq_ok {w : Word} {f : Nat → Nat → Instr} {j : Instr} :
    formatBC w f = .ok j ↔ fieldA w = 0 ∧ f (fieldB w) (fieldC w) = j := by
  unfold formatBC; split <;> simp_all

theorem decodeInfSel_eq_some {v : Nat} {k : InfSel} : decodeInfSel v = some k ↔ v = encodeInfSel k := by
  unfold decodeInfSel; split <;> cases k <;> simp_all [encodeInfSel]

theorem decodeTarget_eq_some {v : Nat} {k : Target} : decodeTarget v = some k ↔ v = encodeTarget k := by
  unfold decodeTarget; split <;> cases k <;> simp_all [encodeTarget]

theorem decodePermKind_eq_some {v : Nat} {k : PermKind} : decodePermKind v = some k ↔ v = encodePermKind k := by
  unfold decodePermKind; split <;> cases k <;> simp_all [encodePermKind]

theorem decodePairKind_eq_some {v : Nat} {k : PairKind} : decodePairKind v = some k ↔ v = encodePairKind k := by
  unfold decodePairKind; split <;> cases k <;> simp_all [encodePairKind]

/-- A platform's serialisation, least significant byte first, loses nothing (R52). -/
theorem wordOfBytes_bytesOfWord (w : Word) : wordOfBytes (bytesOfWord w) = some w := by
  have h := packWord_fields w
  simp only [packWord, fieldOpc, fieldA, fieldB, fieldC, BitVec.ofNat_toNat, BitVec.setWidth_eq] at h
  exact congrArg some h

end Sys2Proof
end

