-- ==== Sys2Proof/Laws/State.lean ====
section
/-! SUPPORT. One lemma per field per update of the state, true by definition, so that no later proof unfolds one. -/

namespace Sys2Proof.Machine

/-! ### Port updates -/

@[simp] theorem State.reply_engine (s : State) (r : Word) : (s.reply r).engine = s.engine := rfl
@[simp] theorem State.reply_pending (s : State) (r : Word) : (s.reply r).port.pending = s.port.pending := rfl
@[simp] theorem State.reply_responses (s : State) (r : Word) :
    (s.reply r).port.responses = r :: s.port.responses := rfl

@[simp] theorem State.withEngine_engine (s : State) (e : Engine) : (s.withEngine e).engine = e := rfl
@[simp] theorem State.withEngine_port (s : State) (e : Engine) : (s.withEngine e).port = s.port := rfl
@[simp] theorem State.withEngine_self (s : State) : s.withEngine s.engine = s := rfl

@[simp] theorem State.withPending_engine (s : State) (l : List HostEvent) : (s.withPending l).engine = s.engine := rfl
@[simp] theorem State.withPending_pending (s : State) (l : List HostEvent) : (s.withPending l).port.pending = l := rfl
@[simp] theorem State.withPending_responses (s : State) (l : List HostEvent) :
    (s.withPending l).port.responses = s.port.responses := rfl

@[simp] theorem State.hardwareReset_engine (s : State) : s.hardwareReset.engine = Engine.reset s.engine.inst := rfl
@[simp] theorem State.hardwareReset_port (s : State) : s.hardwareReset.port = s.port := rfl

@[simp] theorem State.present_engine (s : State) (w : Word) : (s.present w).engine = s.engine := rfl
@[simp] theorem State.present_pending (s : State) (w : Word) :
    (s.present w).port.pending = .command w :: s.port.pending := rfl
@[simp] theorem State.present_responses (s : State) (w : Word) :
    (s.present w).port.responses = s.port.responses := rfl

@[simp] theorem State.answered_engine (s : State) (e : Engine) (d : Nat) : (s.answered e d).engine = e := rfl
@[simp] theorem State.answered_pending (s : State) (e : Engine) (d : Nat) :
    (s.answered e d).port.pending = s.port.pending := rfl
@[simp] theorem State.answered_responses (s : State) (e : Engine) (d : Nat) :
    (s.answered e d).port.responses = successResponse d :: s.port.responses := rfl

@[simp] theorem State.faulted_engine (s : State) (f : FaultKind) (i : Nat) : (s.faulted f i).engine = s.engine := rfl
@[simp] theorem State.faulted_pending (s : State) (f : FaultKind) (i : Nat) :
    (s.faulted f i).port.pending = s.port.pending := rfl
@[simp] theorem State.faulted_responses (s : State) (f : FaultKind) (i : Nat) :
    (s.faulted f i).port.responses = faultResponse f i :: s.port.responses := rfl

/-- `return d` gives a next state, the answered one. -/
theorem State.succeed_eq (s : State) (e : Engine) (d : Nat) : s.succeed e d = .next (s.answered e d) := rfl

/-- `raise` gives a next state, the faulted one. -/
theorem State.raise_eq (s : State) (f : FaultKind) (i : Nat) : s.raise f i = .next (s.faulted f i) := rfl

/-! ### The reset state -/

@[simp] theorem Engine.reset_inst (c : Instance) : (Engine.reset c).inst = c := rfl
@[simp] theorem Engine.reset_n (c : Instance) : (Engine.reset c).n = c.n := rfl
@[simp] theorem Engine.reset_rmax (c : Instance) : (Engine.reset c).rmax = c.rmax := rfl
@[simp] theorem Engine.reset_nrot (c : Instance) : (Engine.reset c).nrot = 0 := rfl
@[simp] theorem Engine.reset_rotors (c : Instance) : (Engine.reset c).rotors = [] := rfl
@[simp] theorem Engine.reset_plugboard (c : Instance) : (Engine.reset c).plugboard = PairSet.empty c.n := rfl
@[simp] theorem Engine.reset_reflector (c : Instance) : (Engine.reset c).reflector = PairSet.empty c.n := rfl
@[simp] theorem Engine.reset_staging (c : Instance) : (Engine.reset c).staging = Staging.clear c.n := rfl
@[simp] theorem Engine.reset_posList (c : Instance) : (Engine.reset c).posList = List.replicate c.rmax 0 := rfl

/-! ### Position updates -/

@[simp] theorem Rotor.withPos_fwd (r : Rotor) (p : Nat) : (r.withPos p).fwd = r.fwd := rfl
@[simp] theorem Rotor.withPos_inv (r : Rotor) (p : Nat) : (r.withPos p).inv = r.inv := rfl
@[simp] theorem Rotor.withPos_pos (r : Rotor) (p : Nat) : (r.withPos p).pos = p := rfl

@[simp] theorem Engine.setPos_inst (e : Engine) (k p : Nat) : (e.setPos k p).inst = e.inst := rfl
@[simp] theorem Engine.setPos_plugboard (e : Engine) (k p : Nat) : (e.setPos k p).plugboard = e.plugboard := rfl
@[simp] theorem Engine.setPos_reflector (e : Engine) (k p : Nat) : (e.setPos k p).reflector = e.reflector := rfl
@[simp] theorem Engine.setPos_staging (e : Engine) (k p : Nat) : (e.setPos k p).staging = e.staging := rfl
@[simp] theorem Engine.setPos_posList (e : Engine) (k p : Nat) : (e.setPos k p).posList = e.posList := rfl

@[simp] theorem Engine.setPositions_inst (e : Engine) (q : List Nat) : (e.setPositions q).inst = e.inst := rfl
@[simp] theorem Engine.setPositions_plugboard (e : Engine) (q : List Nat) :
    (e.setPositions q).plugboard = e.plugboard := rfl
@[simp] theorem Engine.setPositions_reflector (e : Engine) (q : List Nat) :
    (e.setPositions q).reflector = e.reflector := rfl
@[simp] theorem Engine.setPositions_staging (e : Engine) (q : List Nat) :
    (e.setPositions q).staging = e.staging := rfl
@[simp] theorem Engine.setPositions_posList (e : Engine) (q : List Nat) :
    (e.setPositions q).posList = e.posList := rfl

@[simp] theorem Engine.zeroPositions_inst (e : Engine) : e.zeroPositions.inst = e.inst := rfl
@[simp] theorem Engine.zeroPositions_plugboard (e : Engine) : e.zeroPositions.plugboard = e.plugboard := rfl
@[simp] theorem Engine.zeroPositions_reflector (e : Engine) : e.zeroPositions.reflector = e.reflector := rfl
@[simp] theorem Engine.zeroPositions_staging (e : Engine) : e.zeroPositions.staging = e.staging := rfl
@[simp] theorem Engine.zeroPositions_posList (e : Engine) : e.zeroPositions.posList = e.posList := rfl

@[simp] theorem Engine.installRotor_inst (e : Engine) (c : List Nat) : (e.installRotor c).inst = e.inst := rfl
@[simp] theorem Engine.installRotor_plugboard (e : Engine) (c : List Nat) :
    (e.installRotor c).plugboard = e.plugboard := rfl
@[simp] theorem Engine.installRotor_reflector (e : Engine) (c : List Nat) :
    (e.installRotor c).reflector = e.reflector := rfl
@[simp] theorem Engine.installRotor_staging (e : Engine) (c : List Nat) :
    (e.installRotor c).staging = e.staging := rfl
@[simp] theorem Engine.installRotor_posList (e : Engine) (c : List Nat) :
    (e.installRotor c).posList = e.posList := rfl

/-! ### An engine given field by field: what each register reads -/

@[simp] theorem Engine.n_mk (c : Instance) (rs : List Rotor) (p f : PairSet) (g : Staging) (l : List Nat) :
    Engine.n ⟨c, rs, p, f, g, l⟩ = c.n := rfl
@[simp] theorem Engine.rmax_mk (c : Instance) (rs : List Rotor) (p f : PairSet) (g : Staging) (l : List Nat) :
    Engine.rmax ⟨c, rs, p, f, g, l⟩ = c.rmax := rfl
@[simp] theorem Engine.nrot_mk (c : Instance) (rs : List Rotor) (p f : PairSet) (g : Staging) (l : List Nat) :
    Engine.nrot ⟨c, rs, p, f, g, l⟩ = rs.length := rfl

/-- `N` is a function of the instance alone. -/
theorem Engine.n_eq (e : Engine) : e.n = e.inst.n := rfl

/-- `RMAX` is a function of the instance alone. -/
theorem Engine.rmax_eq (e : Engine) : e.rmax = e.inst.rmax := rfl

/-! ### Slots and positions after an update -/

@[simp] theorem Engine.setPos_nrot (e : Engine) (k p : Nat) : (e.setPos k p).nrot = e.nrot := by
  simp [Engine.setPos, Engine.nrot]

@[simp] theorem Engine.zeroPositions_nrot (e : Engine) : e.zeroPositions.nrot = e.nrot := by
  simp [Engine.zeroPositions, Engine.nrot]

@[simp] theorem Engine.installRotor_nrot (e : Engine) (c : List Nat) : (e.installRotor c).nrot = e.nrot + 1 := by
  simp [Engine.installRotor, Engine.nrot]

@[simp] theorem Engine.positions_length (e : Engine) : e.positions.length = e.nrot := by
  simp [Engine.positions, Engine.nrot]

/-- A vector of `NROT` positions leaves the number of rotors. -/
theorem Engine.setPositions_nrot (e : Engine) (q : List Nat) (h : q.length = e.nrot) :
    (e.setPositions q).nrot = e.nrot := by
  simp only [Engine.nrot, Engine.setPositions, List.length_zipWith] at *; omega

/-- Setting one position leaves every other slot (R22). -/
theorem Engine.setPos_slot_ne (e : Engine) {k j : Nat} (p : Nat) (h : j ≠ k) :
    (e.setPos k p).slot j = e.slot j := by
  simp [Engine.setPos, Engine.slot, List.getD_eq_getElem?_getD, Ne.symm h]

/-- Setting the position of an installed slot. -/
theorem Engine.setPos_slot_self (e : Engine) {k : Nat} (p : Nat) (h : k < e.nrot) :
    (e.setPos k p).slot k = (e.slot k).withPos p := by
  have h' : k < e.rotors.length := h
  simp [Engine.setPos, Engine.slot, List.getD_eq_getElem?_getD, h']

/-- Setting all positions, slot by slot. -/
theorem Engine.setPositions_slot (e : Engine) (q : List Nat) {k : Nat} (hk : k < e.nrot) (hq : k < q.length) :
    (e.setPositions q).slot k = (e.slot k).withPos (readEntry q k) := by
  have h' : k < e.rotors.length := hk
  simp [Engine.setPositions, Engine.slot, List.getD_eq_getElem?_getD, readEntry, h', hq]

/-- Zeroing all positions, slot by slot. -/
theorem Engine.zeroPositions_slot (e : Engine) {k : Nat} (hk : k < e.nrot) :
    e.zeroPositions.slot k = (e.slot k).withPos 0 := by
  have h' : k < e.rotors.length := hk
  simp [Engine.zeroPositions, Engine.slot, List.getD_eq_getElem?_getD, h']

/-- A slot that is not installed reads as the empty rotor; no command reads it (R32). -/
theorem Engine.slot_of_ge (e : Engine) {k : Nat} (h : e.nrot ≤ k) :
    e.slot k = { fwd := [], inv := [], pos := 0 } := by
  have h' : e.rotors.length ≤ k := h
  simp [Engine.slot, List.getD_eq_getElem?_getD, List.getElem?_eq_none h']

/-- An installed slot is a member of the list of rotors. -/
theorem Engine.slot_eq_getElem (e : Engine) {k : Nat} (h : k < e.rotors.length) : e.slot k = e.rotors[k] := by
  simp [Engine.slot, List.getD_eq_getElem?_getD, h]

/-- The position vector, element by element. -/
theorem Engine.readEntry_positions (e : Engine) (k : Nat) : readEntry e.positions k = e.pos k := by
  by_cases h : k < e.rotors.length
  · simp [readEntry, Engine.positions, Engine.pos, Engine.slot, List.getD_eq_getElem?_getD, h]
  · have h' : e.rotors.length ≤ k := Nat.le_of_not_lt h
    simp [readEntry, Engine.positions, Engine.pos, Engine.slot, List.getD_eq_getElem?_getD,
      List.getElem?_eq_none h']

/-- Installing a rotor leaves the installed slots. -/
theorem Engine.installRotor_slot_lt (e : Engine) (c : List Nat) {k : Nat} (h : k < e.nrot) :
    (e.installRotor c).slot k = e.slot k := by
  have h' : k < e.rotors.length := h
  simp [Engine.installRotor, Engine.slot, List.getD_eq_getElem?_getD, List.getElem?_append, h']

/-- The rotor just installed. -/
theorem Engine.installRotor_slot_top (e : Engine) (c : List Nat) :
    (e.installRotor c).slot e.nrot = { fwd := c, inv := inverseTable e.n c, pos := 0 } := by
  simp [Engine.installRotor, Engine.slot, Engine.nrot, List.getD_eq_getElem?_getD]

end Sys2Proof.Machine
end

