-- ==== Sys2Proof/Laws/Operands.lean ====
section
/-! SUPPORT. Each operand role says once when it lets the command go on and when it raises its fault (R72). -/

namespace Sys2Proof.Machine

variable {s : State} {k v len : Nat} {next : Host.Outcome State Fault Refusal}

theorem State.needSlot_of_lt (h : k < s.engine.nrot) : s.needSlot k next = next := by
  simp [State.needSlot, h]

theorem State.needSlot_of_ge (h : s.engine.nrot ≤ k) : s.needSlot k next = .next (s.faulted .slot k) := by
  simp [State.needSlot, h, State.raise_eq]

theorem State.needListSlot_of_lt (h : k < s.engine.rmax) : s.needListSlot k next = next := by
  simp [State.needListSlot, h]

theorem State.needListSlot_of_ge (h : s.engine.rmax ≤ k) :
    s.needListSlot k next = .next (s.faulted .slot k) := by
  simp [State.needListSlot, h, State.raise_eq]

theorem State.needIndex_of_lt (h : v < s.engine.n) : s.needIndex v next = next := by
  simp [State.needIndex, h]

theorem State.needIndex_of_ge (h : s.engine.n ≤ v) :
    s.needIndex v next = .next (s.faulted .indexOutOfRange v) := by
  simp [State.needIndex, h, State.raise_eq]

theorem State.needLength_of_eq (h : len = s.engine.nrot) : s.needLength len next = next := by
  simp [State.needLength, h]

theorem State.needLength_of_ne (h : len ≠ s.engine.nrot) :
    s.needLength len next = .next (s.faulted .sizeMismatch s.engine.nrot) := by
  simp [State.needLength, h, State.raise_eq]

theorem State.needUnpaired_of_not (h : s.engine.plugboard.isPaired v = false) : s.needUnpaired v next = next := by
  simp [State.needUnpaired, h]

theorem State.needUnpaired_of_paired (h : s.engine.plugboard.isPaired v = true) :
    s.needUnpaired v next = .next (s.faulted .conflict v) := by
  simp [State.needUnpaired, h, State.raise_eq]

theorem State.needReflected_of_paired (h : s.engine.reflector.isPaired v = true) :
    s.needReflected v next = next := by
  simp [State.needReflected, h]

theorem State.needReflected_of_not (h : s.engine.reflector.isPaired v = false) :
    s.needReflected v next = .next (s.faulted .notFound v) := by
  simp [State.needReflected, h, State.raise_eq]

/-- A role either raises its fault or lets the command go on. -/
theorem State.needSlot_cases (s : State) (k : Nat) (next) :
    (s.engine.nrot ≤ k ∧ s.needSlot k next = .next (s.faulted .slot k)) ∨
    (k < s.engine.nrot ∧ s.needSlot k next = next) := by
  rcases Nat.lt_or_ge k s.engine.nrot with h | h
  · exact .inr ⟨h, State.needSlot_of_lt h⟩
  · exact .inl ⟨h, State.needSlot_of_ge h⟩

theorem State.needListSlot_cases (s : State) (k : Nat) (next) :
    (s.engine.rmax ≤ k ∧ s.needListSlot k next = .next (s.faulted .slot k)) ∨
    (k < s.engine.rmax ∧ s.needListSlot k next = next) := by
  rcases Nat.lt_or_ge k s.engine.rmax with h | h
  · exact .inr ⟨h, State.needListSlot_of_lt h⟩
  · exact .inl ⟨h, State.needListSlot_of_ge h⟩

theorem State.needIndex_cases (s : State) (v : Nat) (next) :
    (s.engine.n ≤ v ∧ s.needIndex v next = .next (s.faulted .indexOutOfRange v)) ∨
    (v < s.engine.n ∧ s.needIndex v next = next) := by
  rcases Nat.lt_or_ge v s.engine.n with h | h
  · exact .inr ⟨h, State.needIndex_of_lt h⟩
  · exact .inl ⟨h, State.needIndex_of_ge h⟩

theorem State.needLength_cases (s : State) (len : Nat) (next) :
    (len ≠ s.engine.nrot ∧ s.needLength len next = .next (s.faulted .sizeMismatch s.engine.nrot)) ∨
    (len = s.engine.nrot ∧ s.needLength len next = next) := by
  rcases eq_or_ne len s.engine.nrot with h | h
  · exact .inr ⟨h, State.needLength_of_eq h⟩
  · exact .inl ⟨h, State.needLength_of_ne h⟩

theorem State.needUnpaired_cases (s : State) (v : Nat) (next) :
    (s.engine.plugboard.isPaired v = true ∧ s.needUnpaired v next = .next (s.faulted .conflict v)) ∨
    (s.engine.plugboard.isPaired v = false ∧ s.needUnpaired v next = next) := by
  cases h : s.engine.plugboard.isPaired v
  · exact .inr ⟨rfl, State.needUnpaired_of_not h⟩
  · exact .inl ⟨rfl, State.needUnpaired_of_paired h⟩

theorem State.needReflected_cases (s : State) (v : Nat) (next) :
    (s.engine.reflector.isPaired v = false ∧ s.needReflected v next = .next (s.faulted .notFound v)) ∨
    (s.engine.reflector.isPaired v = true ∧ s.needReflected v next = next) := by
  cases h : s.engine.reflector.isPaired v
  · exact .inl ⟨rfl, State.needReflected_of_not h⟩
  · exact .inr ⟨rfl, State.needReflected_of_paired h⟩

end Sys2Proof.Machine
end

