-- ==== Sys2Proof/Laws/Tables.lean ====
section
/-! SUPPORT. Reading a table after it has been built or written. -/

namespace Sys2Proof.Machine

/-! ### Tables of numbers -/

@[simp] theorem readEntry_replicate_zero (n i : Nat) : readEntry (List.replicate n 0) i = 0 := by
  by_cases h : i < n <;> simp [readEntry, List.getD_eq_getElem?_getD, h]

@[simp] theorem readBit_replicate_false (n i : Nat) : readBit (List.replicate n false) i = false := by
  by_cases h : i < n <;> simp [readBit, List.getD_eq_getElem?_getD, h]

theorem readBit_replicate_true {n i : Nat} (h : i < n) : readBit (List.replicate n true) i = true := by
  simp [readBit, List.getD_eq_getElem?_getD, h]

theorem readEntry_range {n i : Nat} (h : i < n) : readEntry (List.range n) i = i := by
  simp [readEntry, List.getD_eq_getElem?_getD, h]

theorem readEntry_map_range {n i : Nat} (f : Nat → Nat) (h : i < n) :
    readEntry ((List.range n).map f) i = f i := by
  simp [readEntry, List.getD_eq_getElem?_getD, h]

theorem readBit_map_range {n i : Nat} (f : Nat → Bool) (h : i < n) :
    readBit ((List.range n).map f) i = f i := by
  simp [readBit, List.getD_eq_getElem?_getD, h]

/-- A read after a write to the same entry gives the value written. -/
theorem readEntry_set_self {t : List Nat} {i v : Nat} (h : i < t.length) : readEntry (t.set i v) i = v := by
  simp [readEntry, List.getD_eq_getElem?_getD, h]

/-- A write leaves every other entry alone. -/
theorem readEntry_set_ne (t : List Nat) {i j : Nat} (v : Nat) (h : j ≠ i) :
    readEntry (t.set i v) j = readEntry t j := by
  simp [readEntry, List.getD_eq_getElem?_getD, Ne.symm h]

theorem readBit_set_self {t : List Bool} {i : Nat} {b : Bool} (h : i < t.length) : readBit (t.set i b) i = b := by
  simp [readBit, List.getD_eq_getElem?_getD, h]

theorem readBit_set_ne (t : List Bool) {i j : Nat} (b : Bool) (h : j ≠ i) :
    readBit (t.set i b) j = readBit t j := by
  simp [readBit, List.getD_eq_getElem?_getD, Ne.symm h]

/-- Two tables of one size with the same entries are the same table. -/
theorem table_ext {t u : List Nat} (hl : t.length = u.length)
    (h : ∀ i, i < t.length → readEntry t i = readEntry u i) : t = u := by
  apply List.ext_getElem hl
  intro i h1 h2
  have := h i h1
  simpa [readEntry, List.getD_eq_getElem?_getD, h1, h2] using this

/-! ### The first entry at which a check fails -/

/-- `find?` over `0 .. n-1` answers the smallest number that meets the test. -/
theorem find_range_eq_some {n i : Nat} {p : Nat → Bool} :
    (List.range n).find? p = some i ↔ i < n ∧ p i = true ∧ ∀ j, j < i → p j = false := by
  induction n with
  | zero => simp
  | succ n ih =>
    rw [List.range_succ, List.find?_append, Option.or_eq_some_iff]
    constructor
    · rintro (h | ⟨hn, h⟩)
      · obtain ⟨h1, h2, h3⟩ := ih.mp h
        exact ⟨by omega, h2, h3⟩
      · by_cases hp : p n = true
        · simp [hp] at h
          subst h
          refine ⟨by omega, hp, fun j hj => ?_⟩
          have := List.find?_eq_none.mp hn j (List.mem_range.mpr hj)
          simpa using this
        · simp [hp] at h
    · rintro ⟨h1, h2, h3⟩
      by_cases hi : i < n
      · exact .inl (ih.mpr ⟨hi, h2, h3⟩)
      · have : i = n := by omega
        subst this
        refine .inr ⟨List.find?_eq_none.mpr fun j hj => ?_, by simp [h2]⟩
        simp [h3 j (List.mem_range.mp hj)]

/-- `find?` over `0 .. n-1` answers none when no number meets the test. -/
theorem find_range_eq_none {n : Nat} {p : Nat → Bool} :
    (List.range n).find? p = none ↔ ∀ j, j < n → p j = false := by
  simp [List.find?_eq_none]

/-! ### Inverse derivation (R102) -/

/-- The loop of `Inverse(c)` after its first `m` rounds: the entries of the first `m` values are written. -/
theorem inverse_loop (n m : Nat) (c : List Nat)
    (hc : ∀ i, i < m → readEntry c i < n)
    (hinj : ∀ i j, i < m → j < m → readEntry c i = readEntry c j → i = j) :
    ((List.range m).foldl (fun r i => r.set (readEntry c i) i) (List.replicate n 0)).length = n ∧
    ∀ i, i < m →
      readEntry ((List.range m).foldl (fun r i => r.set (readEntry c i) i) (List.replicate n 0)) (readEntry c i)
        = i := by
  induction m with
  | zero => simp
  | succ m ih =>
    obtain ⟨hl, hr⟩ := ih (fun i hi => hc i (by omega)) (fun i j hi hj => hinj i j (by omega) (by omega))
    rw [List.range_succ, List.foldl_append, List.foldl_cons, List.foldl_nil]
    refine ⟨by simp [hl], fun i hi => ?_⟩
    by_cases him : i = m
    · subst him
      exact readEntry_set_self (by rw [hl]; exact hc i (by omega))
    · rw [readEntry_set_ne _ _ (fun h => him (hinj i m hi (by omega) h))]
      exact hr i (by omega)

/-- `Inverse(c)` has `N` entries and undoes `c` (R102). -/
theorem inverseTable_spec (n : Nat) (c : List Nat) (hc : ∀ i, i < n → readEntry c i < n)
    (hinj : ∀ i j, i < n → j < n → readEntry c i = readEntry c j → i = j) :
    (inverseTable n c).length = n ∧ ∀ i, i < n → readEntry (inverseTable n c) (readEntry c i) = i :=
  inverse_loop n n c hc hinj

/-- An injection of `0 .. n-1` into itself is onto. -/
theorem onto_of_injective {n : Nat} {f : Nat → Nat} (hf : ∀ i, i < n → f i < n)
    (hinj : ∀ i j, i < n → j < n → f i = f j → i = j) : ∀ j, j < n → ∃ i, i < n ∧ f i = j := by
  intro j hj
  let g : Fin n → Fin n := fun i => ⟨f i, hf i i.2⟩
  have hg : Function.Injective g := by
    intro a b h
    exact Fin.ext (hinj a b a.2 b.2 (by simpa [g] using h))
  obtain ⟨i, hi⟩ := (Finite.injective_iff_surjective.mp hg) ⟨j, hj⟩
  exact ⟨i, i.2, by simpa [g] using congrArg Fin.val hi⟩

/-- The derived inverse is an inverse on both sides and stays in range: what ROT establishes of I-PERM (R194). -/
theorem inverseTable_perm (n : Nat) (c : List Nat) (hc : ∀ i, i < n → readEntry c i < n)
    (hinj : ∀ i j, i < n → j < n → readEntry c i = readEntry c j → i = j) (j : Nat) (hj : j < n) :
    readEntry (inverseTable n c) j < n ∧ readEntry c (readEntry (inverseTable n c) j) = j := by
  obtain ⟨i, hi, rfl⟩ := onto_of_injective hc hinj j hj
  have h := (inverseTable_spec n c hc hinj).2 i hi
  rw [h]
  exact ⟨hi, rfl⟩

end Sys2Proof.Machine
end

