-- ==== Sys2Proof/Laws/Exec.lean ====
section
/-! SUPPORT. Everything a command can do, said once (`exec_spec`): it raises a fault of its row of R232 and leaves
no trace, or it succeeds with the effect its rule gives. Later proofs split on this and unfold no meaning. -/

namespace Sys2Proof.Machine

/-- The effect of a command that succeeds: what its operands satisfied, the engine after it, the DATA returned. -/
def Effect (i : Instr) (e e' : Engine) (d : Nat) : Prop :=
  match i with
  | .new => e' = Engine.reset e.inst ∧ d = 0
  | .inf sel => e' = e ∧ d = e.info sel
  | .stc => e' = { e with staging := Staging.clear e.n } ∧ d = 0
  | .stg idx v => idx < e.n ∧ v < e.n ∧ e' = { e with staging := e.staging.write idx v } ∧ d = 0
  | .pfw k idx => k < e.nrot ∧ idx < e.n ∧ e' = e ∧ d = e.fwd k idx
  | .pin k idx => k < e.nrot ∧ idx < e.n ∧ e' = e ∧ d = e.inv k idx
  | .con a b => a < e.n ∧ b < e.n ∧ e.plugboard.isPaired a = false ∧ e.plugboard.isPaired b = false ∧
      e' = { e with plugboard := e.plugboard.connect a b } ∧ d = 0
  | .dis a => a < e.n ∧ e' = { e with plugboard := e.plugboard.disconnect a } ∧ d = 0
  | .isp t v => v < e.n ∧ e' = e ∧ d = (e.target t).query v
  | .plg v => v < e.n ∧ e' = e ∧ d = e.plugEnc v
  | .rfe v => v < e.n ∧ e.reflector.isPaired v = true ∧ e' = e ∧ d = e.reflector.partnerOf v
  | .plb kind => (e.pairCand kind).firstAsymmetry e.n = none ∧
      e' = { e with plugboard := e.pairCand kind } ∧ d = 0
  | .ren k v => k < e.nrot ∧ v < e.n ∧ e' = e ∧ d = rotorEnc e.n (e.slot k) (e.pos k) v
  | .rde k v => k < e.nrot ∧ v < e.n ∧ e' = e ∧ d = rotorDec e.n (e.slot k) (e.pos k) v
  | .adv k => k < e.nrot ∧ e' = e.setPos k (nextPosition e.n (e.pos k)) ∧ d = nextPosition e.n (e.pos k)
  | .spr k p => k < e.nrot ∧ e' = e.setPos k (e.rawPosition p) ∧ d = 0
  | .sen v => v < e.n ∧ e' = e ∧ d = stackEnc e.n e.rotors e.positions v
  | .sde v => v < e.n ∧ e' = e ∧ d = stackDec e.n e.rotors e.positions v
  | .stp => e' = e.setPositions e.stepped ∧ d = 0
  | .pos k => k < e.nrot ∧ e' = e ∧ d = e.pos k
  | .plw k p => k < e.rmax ∧ e' = { e with posList := e.posList.set k p } ∧ d = 0
  | .sps len => len = e.nrot ∧ e' = e.setPositions e.listedPositions ∧ d = 0
  | .rsp => e' = e.zeroPositions ∧ d = 0
  | .rot kind => e.nrot ≠ e.rmax ∧ ∃ c, e.permCand kind = .ok c ∧ e' = e.installRotor c ∧ d = e.nrot
  | .rflct kind => (e.pairCand kind).firstAsymmetry e.n = none ∧
      (e.pairCand kind).firstNotReflecting e.n = none ∧ e' = { e with reflector := e.pairCand kind } ∧ d = 0
  | .enc v => v < e.n ∧ e.reflector.isPaired (e.toReflector e.stepped v) = true ∧
      e' = e.setPositions e.stepped ∧ d = e.machineEnc e.stepped v
  | .dec v => v < e.n ∧ e.reflector.isPaired (e.toReflector e.stepped v) = true ∧
      e' = e.setPositions e.stepped ∧ d = e.machineEnc e.stepped v
  | .rst => e' = e.zeroPositions ∧ d = 0

/-- The command `i` ends in one of the two ways a command can end. -/
def Ends (i : Instr) (s : State) (o : Host.Outcome State Fault Refusal) : Prop :=
  (∃ f info, f ∈ mayRaise i ∧ o = .next (s.faulted f info)) ∨
  (∃ e' d, Effect i s.engine e' d ∧ o = .next (s.answered e' d))

theorem Ends.raise {i : Instr} {s : State} {f : FaultKind} {info : Nat} (h : f ∈ mayRaise i) :
    Ends i s (.next (s.faulted f info)) := .inl ⟨f, info, h, rfl⟩

theorem Ends.succeed {i : Instr} {s : State} {e' : Engine} {d : Nat} (h : Effect i s.engine e' d) :
    Ends i s (s.succeed e' d) := .inr ⟨e', d, h, rfl⟩

theorem Ends.needSlot {i : Instr} {s : State} {k : Nat} {o} (hf : .slot ∈ mayRaise i)
    (h : k < s.engine.nrot → Ends i s o) : Ends i s (s.needSlot k o) := by
  rcases s.needSlot_cases k o with ⟨-, e⟩ | ⟨hk, e⟩ <;> rw [e]
  exacts [.raise hf, h hk]

theorem Ends.needListSlot {i : Instr} {s : State} {k : Nat} {o} (hf : .slot ∈ mayRaise i)
    (h : k < s.engine.rmax → Ends i s o) : Ends i s (s.needListSlot k o) := by
  rcases s.needListSlot_cases k o with ⟨-, e⟩ | ⟨hk, e⟩ <;> rw [e]
  exacts [.raise hf, h hk]

theorem Ends.needIndex {i : Instr} {s : State} {v : Nat} {o} (hf : .indexOutOfRange ∈ mayRaise i)
    (h : v < s.engine.n → Ends i s o) : Ends i s (s.needIndex v o) := by
  rcases s.needIndex_cases v o with ⟨-, e⟩ | ⟨hv, e⟩ <;> rw [e]
  exacts [.raise hf, h hv]

theorem Ends.needLength {i : Instr} {s : State} {len : Nat} {o} (hf : .sizeMismatch ∈ mayRaise i)
    (h : len = s.engine.nrot → Ends i s o) : Ends i s (s.needLength len o) := by
  rcases s.needLength_cases len o with ⟨-, e⟩ | ⟨hv, e⟩ <;> rw [e]
  exacts [.raise hf, h hv]

theorem Ends.needUnpaired {i : Instr} {s : State} {v : Nat} {o} (hf : .conflict ∈ mayRaise i)
    (h : s.engine.plugboard.isPaired v = false → Ends i s o) : Ends i s (s.needUnpaired v o) := by
  rcases s.needUnpaired_cases v o with ⟨-, e⟩ | ⟨hv, e⟩ <;> rw [e]
  exacts [.raise hf, h hv]

theorem Ends.needReflected {i : Instr} {s : State} {v : Nat} {o} (hf : .notFound ∈ mayRaise i)
    (h : s.engine.reflector.isPaired v = true → Ends i s o) : Ends i s (s.needReflected v o) := by
  rcases s.needReflected_cases v o with ⟨-, e⟩ | ⟨hv, e⟩ <;> rw [e]
  exacts [.raise hf, h hv]

/-- ENC and DEC share their pseudocode (R200, R201). -/
theorem Ends.encodeIndex {i : Instr} {s : State} {v : Nat} (hx : .indexOutOfRange ∈ mayRaise i)
    (hn : .notFound ∈ mayRaise i)
    (h : v < s.engine.n → s.engine.reflector.isPaired (s.engine.toReflector s.engine.stepped v) = true →
      Effect i s.engine (s.engine.setPositions s.engine.stepped) (s.engine.machineEnc s.engine.stepped v)) :
    Ends i s (s.encodeIndex v) :=
  .needIndex hx fun hv => .needReflected hn fun hp => .succeed (h hv hp)

/-- Everything a command can do. -/
theorem exec_spec (i : Instr) (s : State) : Ends i s (exec i s) := by
  cases i with
  | new => exact .succeed ⟨rfl, rfl⟩
  | inf sel => exact .succeed ⟨rfl, rfl⟩
  | stc => exact .succeed ⟨rfl, rfl⟩
  | stg a b =>
    exact .needIndex (by simp [mayRaise]) fun h =>
      .needIndex (by simp [mayRaise]) fun h' => .succeed ⟨h, h', rfl, rfl⟩
  | pfw k v =>
    exact .needSlot (by simp [mayRaise]) fun h => .needIndex (by simp [mayRaise]) fun h' => .succeed ⟨h, h', rfl, rfl⟩
  | pin k v =>
    exact .needSlot (by simp [mayRaise]) fun h => .needIndex (by simp [mayRaise]) fun h' => .succeed ⟨h, h', rfl, rfl⟩
  | con a b =>
    exact .needIndex (by simp [mayRaise]) fun ha => .needIndex (by simp [mayRaise]) fun hb =>
      .needUnpaired (by simp [mayRaise]) fun pa => .needUnpaired (by simp [mayRaise]) fun pb =>
        .succeed ⟨ha, hb, pa, pb, rfl, rfl⟩
  | dis a => exact .needIndex (by simp [mayRaise]) fun h => .succeed ⟨h, rfl, rfl⟩
  | isp t v => exact .needIndex (by simp [mayRaise]) fun h => .succeed ⟨h, rfl, rfl⟩
  | plg v => exact .needIndex (by simp [mayRaise]) fun h => .succeed ⟨h, rfl, rfl⟩
  | rfe v =>
    exact .needIndex (by simp [mayRaise]) fun h =>
      .needReflected (by simp [mayRaise]) fun h' => .succeed ⟨h, h', rfl, rfl⟩
  | plb kind =>
    simp only [exec, execPlb]
    split
    · exact .raise (by simp [mayRaise])
    · next h => exact .succeed ⟨h, rfl, rfl⟩
  | ren k v =>
    exact .needSlot (by simp [mayRaise]) fun h => .needIndex (by simp [mayRaise]) fun h' => .succeed ⟨h, h', rfl, rfl⟩
  | rde k v =>
    exact .needSlot (by simp [mayRaise]) fun h => .needIndex (by simp [mayRaise]) fun h' => .succeed ⟨h, h', rfl, rfl⟩
  | adv k => exact .needSlot (by simp [mayRaise]) fun h => .succeed ⟨h, rfl, rfl⟩
  | spr k p => exact .needSlot (by simp [mayRaise]) fun h => .succeed ⟨h, rfl, rfl⟩
  | sen v => exact .needIndex (by simp [mayRaise]) fun h => .succeed ⟨h, rfl, rfl⟩
  | sde v => exact .needIndex (by simp [mayRaise]) fun h => .succeed ⟨h, rfl, rfl⟩
  | stp => exact .succeed ⟨rfl, rfl⟩
  | pos k => exact .needSlot (by simp [mayRaise]) fun h => .succeed ⟨h, rfl, rfl⟩
  | plw k p => exact .needListSlot (by simp [mayRaise]) fun h => .succeed ⟨h, rfl, rfl⟩
  | sps len => exact .needLength (by simp [mayRaise]) fun h => .succeed ⟨h, rfl, rfl⟩
  | rsp => exact .succeed ⟨rfl, rfl⟩
  | rot kind =>
    simp only [exec, execRot]
    split
    · exact .raise (by simp [mayRaise])
    · next h =>
      split
      · exact .raise (by simp [mayRaise])
      · next c hc => exact .succeed ⟨h, c, hc, rfl, rfl⟩
  | rflct kind =>
    simp only [exec, execRfl]
    split
    · exact .raise (by simp [mayRaise])
    · next h =>
      split
      · exact .raise (by simp [mayRaise])
      · next h' => exact .succeed ⟨h, h', rfl, rfl⟩
  | enc v => exact .encodeIndex (by simp [mayRaise]) (by simp [mayRaise]) fun h h' => ⟨h, h', rfl, rfl⟩
  | dec v => exact .encodeIndex (by simp [mayRaise]) (by simp [mayRaise]) fun h h' => ⟨h, h', rfl, rfl⟩
  | rst => exact .succeed ⟨rfl, rfl⟩

/-- The inversion form of `exec_spec`. -/
theorem exec_cases {i : Instr} {s t : State} (h : exec i s = .next t) :
    (∃ f info, f ∈ mayRaise i ∧ t = s.faulted f info) ∨
    (∃ e' d, Effect i s.engine e' d ∧ t = s.answered e' d) := by
  rcases exec_spec i s with ⟨f, info, hf, e⟩ | ⟨e', d, he, e⟩ <;> rw [h] at e <;> cases e
  · exact .inl ⟨f, info, hf, rfl⟩
  · exact .inr ⟨e', d, he, rfl⟩

end Sys2Proof.Machine
end

