-- ==== Sys2Proof/Laws/Pairing.lean ====
section
/-! SUPPORT. Pairing sets and candidate tables, entry by entry, and what the checks of R104, R123, R195 accept. -/

namespace Sys2Proof.Machine

/-! ### The writes of CON and DIS -/

theorem PairSet.connect_isPaired (s : PairSet) {a b : Nat} (ha : a < s.paired.length) (hb : b < s.paired.length)
    (v : Nat) : (s.connect a b).isPaired v = if v = a ∨ v = b then true else s.isPaired v := by
  simp only [PairSet.connect, PairSet.isPaired]
  by_cases h1 : v = b
  · subst h1; rw [readBit_set_self (by simpa using hb)]; simp
  · rw [readBit_set_ne _ _ h1]
    by_cases h2 : v = a
    · subst h2; rw [readBit_set_self ha]; simp
    · rw [readBit_set_ne _ _ h2]; simp [h1, h2]

theorem PairSet.connect_partnerOf (s : PairSet) {a b : Nat} (ha : a < s.partner.length) (hb : b < s.partner.length)
    (v : Nat) : (s.connect a b).partnerOf v = if v = b then a else if v = a then b else s.partnerOf v := by
  simp only [PairSet.connect, PairSet.partnerOf]
  by_cases h1 : v = b
  · subst h1; rw [readEntry_set_self (by simpa using hb)]; simp
  · rw [readEntry_set_ne _ _ h1, if_neg h1]
    by_cases h2 : v = a
    · subst h2; rw [readEntry_set_self ha]; simp
    · rw [readEntry_set_ne _ _ h2]; simp [h2]

/-- DIS of an unpaired index changes nothing. -/
theorem PairSet.disconnect_of_unpaired (s : PairSet) {a : Nat} (h : s.isPaired a = false) : s.disconnect a = s := by
  simp [PairSet.disconnect, h]

theorem PairSet.disconnect_isPaired (s : PairSet) {a : Nat} (h : s.isPaired a = true) (ha : a < s.paired.length)
    (hu : s.partnerOf a < s.paired.length) (v : Nat) :
    (s.disconnect a).isPaired v = if v = a ∨ v = s.partnerOf a then false else s.isPaired v := by
  simp only [PairSet.disconnect, h, if_true]
  simp only [PairSet.isPaired]
  by_cases h1 : v = s.partnerOf a
  · subst h1; rw [readBit_set_self (by simpa using hu)]; simp
  · rw [readBit_set_ne _ _ h1]
    by_cases h2 : v = a
    · subst h2; rw [readBit_set_self ha]; simp
    · rw [readBit_set_ne _ _ h2]; simp [h1, h2]

theorem PairSet.disconnect_partnerOf (s : PairSet) {a : Nat} (h : s.isPaired a = true) (ha : a < s.partner.length)
    (hu : s.partnerOf a < s.partner.length) (v : Nat) :
    (s.disconnect a).partnerOf v = if v = a ∨ v = s.partnerOf a then 0 else s.partnerOf v := by
  simp only [PairSet.disconnect, h, if_true]
  conv_lhs => simp only [PairSet.partnerOf]
  by_cases h1 : v = s.partnerOf a
  · rw [h1]
    rw [show readEntry s.partner a = s.partnerOf a from rfl, readEntry_set_self (by simpa using hu)]; simp
  · rw [show readEntry s.partner a = s.partnerOf a from rfl, readEntry_set_ne _ _ h1]
    by_cases h2 : v = a
    · subst h2; rw [readEntry_set_self ha]; simp
    · rw [readEntry_set_ne _ _ h2, if_neg (by simp [h1, h2])]; rfl

@[simp] theorem PairSet.connect_sizes (s : PairSet) (a b : Nat) :
    (s.connect a b).paired.length = s.paired.length ∧ (s.connect a b).partner.length = s.partner.length := by
  simp [PairSet.connect]

@[simp] theorem PairSet.disconnect_sizes (s : PairSet) (a : Nat) :
    (s.disconnect a).paired.length = s.paired.length ∧ (s.disconnect a).partner.length = s.partner.length := by
  unfold PairSet.disconnect
  split <;> simp

/-! ### The candidates of R122 -/

@[simp] theorem PairSet.empty_isPaired (n v : Nat) : (PairSet.empty n).isPaired v = false := by
  simp [PairSet.empty, PairSet.isPaired]

@[simp] theorem PairSet.empty_partnerOf (n v : Nat) : (PairSet.empty n).partnerOf v = 0 := by
  simp [PairSet.empty, PairSet.partnerOf]

theorem PairSet.mirror_entry {n v : Nat} (h : v < n) :
    (PairSet.mirror n).isPaired v = true ∧ (PairSet.mirror n).partnerOf v = v :=
  ⟨readBit_replicate_true h, readEntry_range h⟩

theorem PairSet.flipped_entry {n v : Nat} (h : v < n) :
    (PairSet.flipped n).isPaired v = true ∧ (PairSet.flipped n).partnerOf v = n - 1 - v :=
  ⟨readBit_replicate_true h, readEntry_map_range _ h⟩

theorem Staging.pairing_entry (g : Staging) {n v : Nat} (h : v < n) :
    (g.pairing n).isPaired v = g.isWritten v ∧
    (g.pairing n).partnerOf v = if g.isWritten v then g.entry v else 0 :=
  ⟨readBit_map_range _ h, readEntry_map_range _ h⟩

@[simp] theorem Staging.clear_isWritten (n i : Nat) : (Staging.clear n).isWritten i = false := by
  simp [Staging.clear, Staging.isWritten]

@[simp] theorem Staging.clear_entry (n i : Nat) : (Staging.clear n).entry i = 0 := by
  simp [Staging.clear, Staging.entry]

/-- Every candidate has tables of `N` entries. -/
theorem Engine.pairCand_sizes (e : Engine) (kind : PairKind) :
    (e.pairCand kind).paired.length = e.n ∧ (e.pairCand kind).partner.length = e.n := by
  cases kind <;> simp [Engine.pairCand, PairSet.empty, PairSet.mirror, PairSet.flipped, Staging.pairing]

/-! ### What the checks accept -/

/-- The symmetry check passes exactly on symmetric pairings (R123). -/
theorem PairSet.firstAsymmetry_eq_none {s : PairSet} {n : Nat} :
    s.firstAsymmetry n = none ↔
      ∀ v, v < n → s.isPaired v = true → s.isPaired (s.partnerOf v) = true ∧ s.partnerOf (s.partnerOf v) = v := by
  simp only [PairSet.firstAsymmetry, find_range_eq_none]
  refine forall₂_congr fun v _ => ?_
  cases s.isPaired v <;> cases s.isPaired (s.partnerOf v) <;> simp

/-- The symmetry check names the smallest index that is not symmetric (R123). -/
theorem PairSet.firstAsymmetry_eq_some {s : PairSet} {n v : Nat} :
    s.firstAsymmetry n = some v ↔
      v < n ∧ (s.isPaired v = true ∧ ¬ (s.isPaired (s.partnerOf v) = true ∧ s.partnerOf (s.partnerOf v) = v)) ∧
      ∀ u, u < v → s.isPaired u = true → s.isPaired (s.partnerOf u) = true ∧ s.partnerOf (s.partnerOf u) = u := by
  simp only [PairSet.firstAsymmetry, find_range_eq_some]
  refine and_congr_right fun _ => and_congr ?_ (forall₂_congr fun u _ => ?_)
  · cases s.isPaired v <;> cases s.isPaired (s.partnerOf v) <;> simp
  · cases s.isPaired u <;> cases s.isPaired (s.partnerOf u) <;> simp

/-- The reflector check passes exactly when every index is paired, none with itself (R195). -/
theorem PairSet.firstNotReflecting_eq_none {s : PairSet} {n : Nat} :
    s.firstNotReflecting n = none ↔ ∀ v, v < n → s.isPaired v = true ∧ s.partnerOf v ≠ v := by
  simp only [PairSet.firstNotReflecting, find_range_eq_none]
  refine forall₂_congr fun v _ => ?_
  cases s.isPaired v <;> simp

/-- The reflector check names the smallest index that is unpaired or paired with itself (R195). -/
theorem PairSet.firstNotReflecting_eq_some {s : PairSet} {n v : Nat} :
    s.firstNotReflecting n = some v ↔
      v < n ∧ (s.isPaired v = false ∨ s.partnerOf v = v) ∧
      ∀ u, u < v → s.isPaired u = true ∧ s.partnerOf u ≠ u := by
  simp only [PairSet.firstNotReflecting, find_range_eq_some]
  refine and_congr_right fun _ => and_congr ?_ (forall₂_congr fun u _ => ?_)
  · cases s.isPaired v <;> simp
  · cases s.isPaired u <;> simp

/-- The gap loop of R104. -/
theorem Staging.firstGap_eq_some {g : Staging} {n i : Nat} :
    g.firstGap n = some i ↔ i < n ∧ g.isWritten i = false ∧ ∀ j, j < i → g.isWritten j = true := by
  rw [Staging.firstGap, find_range_eq_some]; simp

theorem Staging.firstGap_eq_none {g : Staging} {n : Nat} :
    g.firstGap n = none ↔ ∀ j, j < n → g.isWritten j = true := by
  simp [Staging.firstGap]

/-- The repeat loop of R104. -/
theorem Staging.firstRepeat_eq_some {g : Staging} {n i : Nat} :
    g.firstRepeat n = some i ↔
      i < n ∧ (∃ j, j < i ∧ g.entry j = g.entry i) ∧ ∀ h, h < i → ∀ j, j < h → g.entry j ≠ g.entry h := by
  rw [Staging.firstRepeat, find_range_eq_some]; simp

theorem Staging.firstRepeat_eq_none {g : Staging} {n : Nat} :
    g.firstRepeat n = none ↔ ∀ i, i < n → ∀ j, j < i → g.entry j ≠ g.entry i := by
  simp [Staging.firstRepeat]

/-- A candidate table of ROT is a permutation of `0 .. N-1` with `N` entries (R104). -/
theorem Engine.permCand_spec {e : Engine} {kind : PermKind} {c : List Nat}
    (hg : ∀ i, i < e.n → e.staging.entry i < e.n) (h : e.permCand kind = .ok c) :
    c.length = e.n ∧ (∀ i, i < e.n → readEntry c i < e.n) ∧
    ∀ i j, i < e.n → j < e.n → readEntry c i = readEntry c j → i = j := by
  cases kind with
  | asc =>
    cases h
    refine ⟨by simp [ascendingTable], fun i hi => ?_, fun i j hi hj => ?_⟩
    · simp [ascendingTable, readEntry_range hi, hi]
    · simp [ascendingTable, readEntry_range hi, readEntry_range hj]
  | dsc =>
    cases h
    refine ⟨by simp [descendingTable], fun i hi => ?_, fun i j hi hj => ?_⟩
    · rw [descendingTable, readEntry_map_range _ hi]; omega
    · rw [descendingTable, readEntry_map_range _ hi, readEntry_map_range _ hj]; omega
  | stg =>
    simp only [Engine.permCand, Staging.permutation] at h
    split at h
    · cases h
    · split at h
      · cases h
      · next hr =>
        cases h
        have hr := Staging.firstRepeat_eq_none.mp hr
        refine ⟨by simp, fun i hi => ?_, fun i j hi hj he => ?_⟩
        · rw [readEntry_map_range _ hi]; exact hg i hi
        · rw [readEntry_map_range _ hi, readEntry_map_range _ hj] at he
          rcases Nat.lt_trichotomy i j with hlt | heq | hgt
          · exact absurd he (hr j hj i hlt)
          · exact heq
          · exact absurd he.symm (hr i hi j hgt)

end Sys2Proof.Machine
end

