-- ==== Sys2Proof/Laws/Stack.lean ====
section
/-! SUPPORT. The rotor functions, the stack functions and the stepping function, each with what it answers. -/

namespace Sys2Proof.Machine

/-! ### One rotor (R150 to R152, R158) -/

/-- A rotor whose tables satisfy the statement of I-PERM. -/
def Rotor.Wired (n : Nat) (r : Rotor) : Prop :=
  ∀ i, i < n → readEntry r.fwd i < n ∧ readEntry r.inv i < n ∧
    readEntry r.inv (readEntry r.fwd i) = i ∧ readEntry r.fwd (readEntry r.inv i) = i

theorem rotorEnc_lt {n p v : Nat} {r : Rotor} (hr : r.Wired n) (hv : v < n) : rotorEnc n r p v < n :=
  (hr _ (Nat.mod_lt _ (by omega))).1

theorem rotorDec_lt {n p v : Nat} {r : Rotor} (hv : v < n) : rotorDec n r p v < n :=
  Nat.mod_lt _ (by omega)

/-- Subtracting the offset undoes adding it, on indices (R158). -/
theorem offset_cancel {n p v : Nat} (hp : p < n) (hv : v < n) : ((v + p) % n + n - p) % n = v := by
  rcases Nat.lt_or_ge (v + p) n with h | h
  · rw [Nat.mod_eq_of_lt h, show v + p + n - p = v + n by omega, Nat.add_mod_right, Nat.mod_eq_of_lt hv]
  · rw [Nat.mod_eq_sub_mod h, Nat.mod_eq_of_lt (by omega : v + p - n < n), show v + p - n + n - p = v by omega,
      Nat.mod_eq_of_lt hv]

/-- Adding the offset undoes subtracting it, on indices (R158). -/
theorem offset_cancel' {n p v : Nat} (hp : p < n) (hv : v < n) : ((v + n - p) % n + p) % n = v := by
  rcases Nat.lt_or_ge (v + n - p) n with h | h
  · rw [Nat.mod_eq_of_lt h, show v + n - p + p = v + n by omega, Nat.add_mod_right, Nat.mod_eq_of_lt hv]
  · rw [Nat.mod_eq_sub_mod h, Nat.mod_eq_of_lt (by omega : v + n - p - n < n),
      show v + n - p - n + p = v by omega, Nat.mod_eq_of_lt hv]

/-- R158, the first law: at any position decode undoes encode. -/
theorem rotorDec_rotorEnc {n p v : Nat} {r : Rotor} (hr : r.Wired n) (hp : p < n) (hv : v < n) :
    rotorDec n r p (rotorEnc n r p v) = v := by
  simp only [rotorDec, rotorEnc]
  rw [(hr _ (Nat.mod_lt (v + p) (by omega : n > 0))).2.2.1]
  exact offset_cancel hp hv

/-- R158, the second law: at any position encode undoes decode. -/
theorem rotorEnc_rotorDec {n p v : Nat} {r : Rotor} (hr : r.Wired n) (hp : p < n) (hv : v < n) :
    rotorEnc n r p (rotorDec n r p v) = v := by
  obtain ⟨-, hi, -, hf⟩ := hr v hv
  simp only [rotorDec, rotorEnc]
  rw [offset_cancel' hp hi, hf]

/-! ### The stack functions, slot by slot (R170, R171) -/

@[simp] theorem stackEnc_nil (n v : Nat) (p : List Nat) : stackEnc n [] p v = v := rfl
@[simp] theorem stackDec_nil (n v : Nat) (p : List Nat) : stackDec n [] p v = v := rfl
@[simp] theorem stackEnc_cons (n p v : Nat) (r : Rotor) (rs : List Rotor) (ps : List Nat) :
    stackEnc n (r :: rs) (p :: ps) v = stackEnc n rs ps (rotorEnc n r p v) := rfl
@[simp] theorem stackDec_cons (n p v : Nat) (r : Rotor) (rs : List Rotor) (ps : List Nat) :
    stackDec n (r :: rs) (p :: ps) v = rotorDec n r p (stackDec n rs ps v) := rfl

theorem stackEnc_lt {n : Nat} {rs : List Rotor} {ps : List Nat} {v : Nat} (hr : ∀ r ∈ rs, r.Wired n) (hv : v < n) :
    stackEnc n rs ps v < n := by
  induction rs generalizing ps v with
  | nil => exact hv
  | cons r rs ih =>
    cases ps with
    | nil => exact hv
    | cons p ps =>
      exact ih (fun q hq => hr q (List.mem_cons_of_mem _ hq)) (rotorEnc_lt (hr r List.mem_cons_self) hv)

theorem stackDec_lt {n : Nat} {rs : List Rotor} {ps : List Nat} {v : Nat} (hv : v < n) :
    stackDec n rs ps v < n := by
  induction rs generalizing ps with
  | nil => exact hv
  | cons r rs ih =>
    cases ps with
    | nil => exact hv
    | cons p ps => exact rotorDec_lt ih

/-! ### The stepping function (R175, R176) -/

theorem nextPosition_lt {n p : Nat} (hn : 1 ≤ n) : nextPosition n p < n := Nat.mod_lt _ (by omega)

/-- With no carry nothing changes. -/
@[simp] theorem advanceWith_false (n : Nat) (ps : List Nat) : advanceWith n false ps = ps := by
  induction ps with
  | nil => rfl
  | cons p ps ih => simp [advanceWith, ih]

@[simp] theorem stackAdvance_nil (n : Nat) : stackAdvance n [] = [] := rfl

/-- Rotor 0 always advances; the rest is stepped exactly when rotor 0 was at its maximum position. -/
theorem stackAdvance_cons (n p : Nat) (ps : List Nat) :
    stackAdvance n (p :: ps) = nextPosition n p :: if p = n - 1 then stackAdvance n ps else ps := by
  simp only [stackAdvance, advanceWith]
  by_cases h : p = n - 1
  · rw [if_pos h, beq_iff_eq.mpr h]
  · rw [if_neg h, beq_eq_false_iff_ne.mpr h, advanceWith_false]

@[simp] theorem stackAdvance_length (n : Nat) (ps : List Nat) : (stackAdvance n ps).length = ps.length := by
  induction ps with
  | nil => rfl
  | cons p ps ih =>
    rw [stackAdvance_cons]
    split <;> simp [ih]

theorem stackAdvance_lt {n : Nat} {ps : List Nat} (hn : 1 ≤ n) (h : ∀ p ∈ ps, p < n) :
    ∀ q ∈ stackAdvance n ps, q < n := by
  induction ps with
  | nil => simp
  | cons p ps ih =>
    rw [stackAdvance_cons]
    intro q hq
    rcases List.mem_cons.mp hq with rfl | hq
    · exact nextPosition_lt hn
    · split at hq
      · exact ih (fun r hr => h r (List.mem_cons_of_mem _ hr)) q hq
      · exact h q (List.mem_cons_of_mem _ hq)

@[simp] theorem readEntry_cons_zero (p : Nat) (ps : List Nat) : readEntry (p :: ps) 0 = p := rfl
@[simp] theorem readEntry_cons_succ (p : Nat) (ps : List Nat) (j : Nat) :
    readEntry (p :: ps) (j + 1) = readEntry ps j := rfl

/-- A rotor all of whose lower rotors were at `N-1` advances (R175). -/
theorem readEntry_stackAdvance_of_carry {n : Nat} {ps : List Nat} {j : Nat} (hj : j < ps.length)
    (h : ∀ i, i < j → readEntry ps i = n - 1) :
    readEntry (stackAdvance n ps) j = nextPosition n (readEntry ps j) := by
  induction ps generalizing j with
  | nil => exact absurd hj (by simp)
  | cons p ps ih =>
    rw [stackAdvance_cons]
    cases j with
    | zero => rfl
    | succ j =>
      rw [if_pos (show p = n - 1 from h 0 (by omega))]
      exact ih (by simpa using hj) fun i hi => h (i + 1) (by omega)

/-- A rotor with a lower rotor that was not at `N-1` does not move (R175). -/
theorem readEntry_stackAdvance_of_no_carry {n : Nat} {ps : List Nat} {j i : Nat} (hi : i < j)
    (h : readEntry ps i ≠ n - 1) : readEntry (stackAdvance n ps) j = readEntry ps j := by
  induction ps generalizing j i with
  | nil => rfl
  | cons p ps ih =>
    rw [stackAdvance_cons]
    obtain ⟨j, rfl⟩ : ∃ j', j = j' + 1 := ⟨j - 1, by omega⟩
    rw [readEntry_cons_succ, readEntry_cons_succ]
    split
    · next hp =>
      cases i with
      | zero => exact absurd hp h
      | succ i => exact ih (by omega) h
    · rfl

end Sys2Proof.Machine
end

