-- ==== Sys2Proof/Laws/Positions.lean ====
section
/-! SUPPORT. Each operation that writes positions, said once: nothing but positions differs, and what the positions
then are. -/

namespace Sys2Proof.Machine

/-! ### Nothing but positions differs -/

theorem Engine.setPos_same (e : Engine) (k p : Nat) : e.SameButPositions (e.setPos k p) := by
  refine ⟨rfl, by simp, fun j => ?_, rfl, rfl, rfl, rfl⟩
  by_cases hj : j = k
  · subst hj
    by_cases hk : j < e.nrot
    · simp [Engine.setPos_slot_self _ _ hk]
    · rw [Engine.slot_of_ge _ (by simpa using hk), Engine.slot_of_ge _ (by simpa using hk)]; simp
  · rw [Engine.setPos_slot_ne _ _ hj]; simp

theorem Engine.setPositions_same (e : Engine) (q : List Nat) (h : q.length = e.nrot) :
    e.SameButPositions (e.setPositions q) := by
  refine ⟨rfl, Engine.setPositions_nrot _ _ h, fun j => ?_, rfl, rfl, rfl, rfl⟩
  by_cases hk : j < e.nrot
  · simp [Engine.setPositions_slot e q hk (by omega)]
  · rw [Engine.slot_of_ge _ (by rw [Engine.setPositions_nrot _ _ h]; omega),
      Engine.slot_of_ge _ (by simpa using hk)]; simp

theorem Engine.zeroPositions_same (e : Engine) : e.SameButPositions e.zeroPositions := by
  refine ⟨rfl, by simp, fun j => ?_, rfl, rfl, rfl, rfl⟩
  by_cases hk : j < e.nrot
  · simp [Engine.zeroPositions_slot e hk]
  · rw [Engine.slot_of_ge _ (by simpa using hk), Engine.slot_of_ge _ (by simpa using hk)]; simp

/-! ### The positions after the write -/

theorem Engine.setPos_pos (e : Engine) {k j : Nat} (p : Nat) (hk : k < e.nrot) :
    (e.setPos k p).pos j = if j = k then p else e.pos j := by
  simp only [Engine.pos]
  split
  · next h => subst h; simp [Engine.setPos_slot_self _ _ hk]
  · next h => rw [Engine.setPos_slot_ne _ _ h]

theorem Engine.setPositions_pos (e : Engine) {j : Nat} (q : List Nat) (hq : q.length = e.nrot) (hj : j < e.nrot) :
    (e.setPositions q).pos j = readEntry q j := by
  simp [Engine.pos, Engine.setPositions_slot e q hj (by omega)]

theorem Engine.zeroPositions_pos (e : Engine) {j : Nat} (hj : j < e.nrot) : e.zeroPositions.pos j = 0 := by
  simp [Engine.pos, Engine.zeroPositions_slot e hj]

/-- The whole vector after it has been set. -/
theorem Engine.setPositions_positions (e : Engine) (q : List Nat) (h : q.length = e.nrot) :
    (e.setPositions q).positions = q := by
  apply table_ext
  · rw [Engine.positions_length, Engine.setPositions_nrot _ _ h, h]
  · intro i hi
    rw [Engine.positions_length, Engine.setPositions_nrot _ _ h] at hi
    rw [Engine.readEntry_positions, Engine.setPositions_pos _ _ h hi]

/-! ### Vectors of positions -/

@[simp] theorem Engine.stepped_length (e : Engine) : e.stepped.length = e.nrot := by simp [Engine.stepped]

@[simp] theorem Engine.listedPositions_length (e : Engine) : e.listedPositions.length = e.nrot := by
  simp [Engine.listedPositions]

theorem readEntry_mem {l : List Nat} {k : Nat} (h : k < l.length) : readEntry l k ∈ l := by
  simp [readEntry, List.getD_eq_getElem?_getD, h]

/-- I-POS, of the vector. -/
theorem Engine.positions_lt {e : Engine} (h : e.IPos) : ∀ p ∈ e.positions, p < e.n := by
  intro p hp
  obtain ⟨k, hk, rfl⟩ := List.mem_iff_getElem.mp hp
  have hk' : k < e.nrot := by simpa using hk
  have := h k hk'
  rw [← Engine.readEntry_positions, readEntry, List.getD_eq_getElem?_getD, List.getElem?_eq_getElem hk] at this
  exact this

/-- I-PERM, of every rotor of the stack. -/
theorem Engine.rotors_wired {e : Engine} (h : e.IPerm) : ∀ r ∈ e.rotors, r.Wired e.n := by
  intro r hr
  obtain ⟨k, hk, rfl⟩ := List.mem_iff_getElem.mp hr
  rw [← Engine.slot_eq_getElem e hk]
  exact fun i hi => h k hk i hi

end Sys2Proof.Machine
end

