-- ==== Sys2Proof/Laws/Response.lean ====
section
/-! SUPPORT. The fields of a response word (R73 to R75). -/

namespace Sys2Proof.Machine

/-- `F` of a packed response. -/
theorem packResponse_fault (f : BitVec 1) (code data : Nat) :
    responseFault (packResponse f code data) = f.getLsbD 0 := by
  simp only [responseFault, packResponse, BitVec.getLsbD_append]
  simp

/-- `CODE` of a packed response. -/
theorem packResponse_code (f : BitVec 1) (code data : Nat) :
    responseCode (packResponse f code data) = code % 16 := by
  have h : (packResponse f code data).extractLsb' 24 4 = BitVec.ofNat 4 code := by
    apply BitVec.eq_of_getLsbD_eq
    intro i hi
    simp only [packResponse, BitVec.getLsbD_extractLsb', BitVec.getLsbD_append]
    simp [hi, show ¬ 24 + i < 16 by omega, show ¬ 24 + i - 16 < 8 by omega,
      show 24 + i - 16 - 8 = i by omega]
  simp [responseCode, h]

/-- `DATA` of a packed response. -/
theorem packResponse_data (f : BitVec 1) (code data : Nat) :
    responseData (packResponse f code data) = data % 65536 := by
  have h : (packResponse f code data).extractLsb' 0 16 = BitVec.ofNat 16 data := by
    apply BitVec.eq_of_getLsbD_eq
    intro i hi
    simp only [packResponse, BitVec.getLsbD_extractLsb', BitVec.getLsbD_append]
    simp [hi]
  simp [responseData, h]

@[simp] theorem successResponse_fault (d : Nat) : responseFault (successResponse d) = false := by
  simp [successResponse, packResponse_fault]

@[simp] theorem faultResponse_fault (f : FaultKind) (i : Nat) : responseFault (faultResponse f i) = true := by
  simp [faultResponse, packResponse_fault]

@[simp] theorem successResponse_code (d : Nat) : responseCode (successResponse d) = 0 := by
  simp [successResponse, packResponse_code]

@[simp] theorem faultResponse_code (f : FaultKind) (i : Nat) : responseCode (faultResponse f i) = faultCode f := by
  cases f <;> simp [faultResponse, packResponse_code, faultCode]

@[simp] theorem successResponse_data (d : Nat) : responseData (successResponse d) = d % 65536 := by
  simp [successResponse, packResponse_data]

@[simp] theorem faultResponse_data (f : FaultKind) (i : Nat) : responseData (faultResponse f i) = i % 65536 := by
  simp [faultResponse, packResponse_data]

/-- A success response is never a fault response. -/
theorem successResponse_ne_faultResponse (d : Nat) (f : FaultKind) (i : Nat) :
    successResponse d ≠ faultResponse f i := by
  intro h
  have h' := congrArg responseFault h
  simp at h'

/-- The code names the fault. -/
theorem faultCode_injective {f g : FaultKind} (h : faultCode f = faultCode g) : f = g := by
  cases f <;> cases g <;> first | rfl | exact absurd h (by decide)

end Sys2Proof.Machine
end

