-- ==== Sys2Proof/Laws/Step.lean ====
section
/-! SUPPORT. Everything one step can do, said once. -/

namespace Sys2Proof.Machine

/-- What `step` answers, by the host's next event, in a state of an instance that exists. -/
theorem step_cases {s t : State} (h : step s = .next t) :
    s.engine.inst.Valid ∧
    ((s.port.pending = [] ∧ t = s) ∨
     (∃ rest, (s.port.pending = .reset :: rest ∨ ∃ w, s.port.pending = .resetDuring w :: rest) ∧
        t = (s.withPending rest).hardwareReset) ∨
     (∃ w i rest, s.port.pending = .command w :: rest ∧ decode w = .ok i ∧
        exec i (s.withPending rest) = .next t) ∨
     (∃ w r rest, s.port.pending = .command w :: rest ∧ decode w = .error r ∧
        t = (s.withPending rest).faulted .illegalCommand (fieldOpc w))) := by
  by_cases hv : s.engine.inst.Valid
  · refine ⟨hv, ?_⟩
    rw [step, if_pos hv] at h
    split at h
    · next hp => cases h; exact .inl ⟨hp, rfl⟩
    · next rest hp => cases h; exact .inr (.inl ⟨rest, .inl hp, rfl⟩)
    · next w rest hp => cases h; exact .inr (.inl ⟨rest, .inr ⟨w, hp⟩, rfl⟩)
    · next w rest hp =>
      split at h
      · next i hd => exact .inr (.inr (.inl ⟨w, i, rest, hp, hd, h⟩))
      · next r hd => cases h; exact .inr (.inr (.inr ⟨w, r, rest, hp, hd, rfl⟩))
  · rw [step, if_neg hv] at h
    cases h

end Sys2Proof.Machine
end

