-- ==== Sys2Proof/Tests/Slice0.lean ====
section
/-! SUPPORT. Tests with expected values taken from the spec (rule or vector table named), and for every obligation
with hypotheses a named witness that meets them. -/

namespace Sys2Proof.Tests

open Sys2Proof.Machine

/-! ### WellFormed: each operand check refuses 256 and accepts 255 (R72) -/

theorem test_wf_stg : (Instr.stg 256 0).wellFormed = false ∧ (Instr.stg 0 256).wellFormed = false ∧
    (Instr.stg 255 255).wellFormed = true := by decide
theorem test_wf_pfw : (Instr.pfw 256 0).wellFormed = false ∧ (Instr.pfw 0 256).wellFormed = false ∧
    (Instr.pfw 255 255).wellFormed = true := by decide
theorem test_wf_pin : (Instr.pin 256 0).wellFormed = false ∧ (Instr.pin 0 256).wellFormed = false ∧
    (Instr.pin 255 255).wellFormed = true := by decide
theorem test_wf_con : (Instr.con 256 0).wellFormed = false ∧ (Instr.con 0 256).wellFormed = false ∧
    (Instr.con 255 255).wellFormed = true := by decide
theorem test_wf_dis : (Instr.dis 256).wellFormed = false ∧ (Instr.dis 255).wellFormed = true := by decide
theorem test_wf_isp : (Instr.isp .rf 256).wellFormed = false ∧ (Instr.isp .rf 255).wellFormed = true := by decide
theorem test_wf_plg : (Instr.plg 256).wellFormed = false ∧ (Instr.plg 255).wellFormed = true := by decide
theorem test_wf_rfe : (Instr.rfe 256).wellFormed = false ∧ (Instr.rfe 255).wellFormed = true := by decide
theorem test_wf_ren : (Instr.ren 256 0).wellFormed = false ∧ (Instr.ren 0 256).wellFormed = false ∧
    (Instr.ren 255 255).wellFormed = true := by decide
theorem test_wf_rde : (Instr.rde 256 0).wellFormed = false ∧ (Instr.rde 0 256).wellFormed = false ∧
    (Instr.rde 255 255).wellFormed = true := by decide
theorem test_wf_adv : (Instr.adv 256).wellFormed = false ∧ (Instr.adv 255).wellFormed = true := by decide
theorem test_wf_spr : (Instr.spr 256 0).wellFormed = false ∧ (Instr.spr 0 256).wellFormed = false ∧
    (Instr.spr 255 255).wellFormed = true := by decide
theorem test_wf_sen : (Instr.sen 256).wellFormed = false ∧ (Instr.sen 255).wellFormed = true := by decide
theorem test_wf_sde : (Instr.sde 256).wellFormed = false ∧ (Instr.sde 255).wellFormed = true := by decide
theorem test_wf_pos : (Instr.pos 256).wellFormed = false ∧ (Instr.pos 255).wellFormed = true := by decide
theorem test_wf_plw : (Instr.plw 256 0).wellFormed = false ∧ (Instr.plw 0 256).wellFormed = false ∧
    (Instr.plw 255 255).wellFormed = true := by decide
theorem test_wf_sps : (Instr.sps 256).wellFormed = false ∧ (Instr.sps 255).wellFormed = true := by decide
theorem test_wf_enc : (Instr.enc 256).wellFormed = false ∧ (Instr.enc 255).wellFormed = true := by decide
theorem test_wf_dec : (Instr.dec 256).wellFormed = false ∧ (Instr.dec 255).wellFormed = true := by decide

/-- The commands whose operands are all named values, or that have none, need no check. -/
theorem test_wf_no_check : (Instr.new).wellFormed = true ∧ (Instr.inf .rmax).wellFormed = true ∧
    (Instr.stc).wellFormed = true ∧ (Instr.plb .stg).wellFormed = true ∧ (Instr.stp).wellFormed = true ∧
    (Instr.rsp).wellFormed = true ∧ (Instr.rot .stg).wellFormed = true ∧ (Instr.rflct .stg).wellFormed = true ∧
    (Instr.rst).wellFormed = true := by decide

/-! ### Decoding: the four fields written out bit by bit from R71 and R77, one word per constructor -/

theorem test_decode_new : decode 0b00000001_00000000_00000000_00000000 = .ok .new := by decide
theorem test_decode_inf : decode 0b00000010_00000000_00000000_00000001 = .ok (.inf .nrot) := by decide
theorem test_decode_stc : decode 0b00010000_00000000_00000000_00000000 = .ok .stc := by decide
theorem test_decode_stg : decode 0b00010001_00000000_00000011_00011000 = .ok (.stg 3 24) := by decide
theorem test_decode_pfw : decode 0b00010010_00000001_00000000_00011001 = .ok (.pfw 1 25) := by decide
theorem test_decode_pin : decode 0b00010011_00000010_00000000_00000111 = .ok (.pin 2 7) := by decide
theorem test_decode_con : decode 0b00100000_00000000_00000101_00001001 = .ok (.con 5 9) := by decide
theorem test_decode_dis : decode 0b00100001_00000000_00000000_00000101 = .ok (.dis 5) := by decide
theorem test_decode_isp : decode 0b00100010_00000001_00000000_00000111 = .ok (.isp .rf 7) := by decide
theorem test_decode_plg : decode 0b00100011_00000000_00000000_11111111 = .ok (.plg 255) := by decide
theorem test_decode_rfe : decode 0b00100100_00000000_00000000_00010010 = .ok (.rfe 18) := by decide
theorem test_decode_plb : decode 0b00100101_00000000_00000000_00000010 = .ok (.plb .flp) := by decide
theorem test_decode_ren : decode 0b00110000_00000010_00000000_00011001 = .ok (.ren 2 25) := by decide
theorem test_decode_rde : decode 0b00110001_00000011_00000000_00011010 = .ok (.rde 3 26) := by decide
theorem test_decode_adv : decode 0b00110010_00000001_00000000_00000000 = .ok (.adv 1) := by decide
theorem test_decode_spr : decode 0b00110011_00000001_00000000_11111111 = .ok (.spr 1 255) := by decide
theorem test_decode_sen : decode 0b01000000_00000000_00000000_00000111 = .ok (.sen 7) := by decide
theorem test_decode_sde : decode 0b01000001_00000000_00000000_00010010 = .ok (.sde 18) := by decide
theorem test_decode_stp : decode 0b01000010_00000000_00000000_00000000 = .ok .stp := by decide
theorem test_decode_pos : decode 0b01000011_00000011_00000000_00000000 = .ok (.pos 3) := by decide
theorem test_decode_plw : decode 0b01000100_00000011_00000000_01100011 = .ok (.plw 3 99) := by decide
theorem test_decode_sps : decode 0b01000101_00000000_00000000_00000011 = .ok (.sps 3) := by decide
theorem test_decode_rsp : decode 0b01000110_00000000_00000000_00000000 = .ok .rsp := by decide
theorem test_decode_rot : decode 0b01010000_00000000_00000000_00000010 = .ok (.rot .stg) := by decide
theorem test_decode_rfl : decode 0b01010001_00000000_00000000_00000011 = .ok (.rflct .stg) := by decide
theorem test_decode_enc : decode 0b01010010_00000000_00000000_00000111 = .ok (.enc 7) := by decide
theorem test_decode_dec : decode 0b01010011_00000000_00000000_00010000 = .ok (.dec 16) := by decide
theorem test_decode_rst : decode 0b01010100_00000000_00000000_00000000 = .ok .rst := by decide

/-- Every named value of R79 has its number. -/
theorem test_decode_named_values :
    decode 0x02000000 = .ok (.inf .n) ∧ decode 0x02000002 = .ok (.inf .rmax) ∧
    decode 0x22000000 = .ok (.isp .pb 0) ∧ decode 0x50000000 = .ok (.rot .asc) ∧ decode 0x50000001 = .ok (.rot .dsc) ∧
    decode 0x25000000 = .ok (.plb .emp) ∧ decode 0x25000001 = .ok (.plb .mir) ∧ decode 0x25000003 = .ok (.plb .stg) ∧
    decode 0x51000000 = .ok (.rflct .emp) ∧ decode 0x51000001 = .ok (.rflct .mir) ∧
    decode 0x51000002 = .ok (.rflct .flp) := by decide

/-- V30: reserved opcodes, at the edges of every reserved range of R80. -/
theorem test_reserved_opcodes :
    decode 0x00000000 = .error .reservedOpcode ∧ decode 0xFFFFFFFF = .error .reservedOpcode ∧
    decode 0x03000000 = .error .reservedOpcode ∧ decode 0x0F000000 = .error .reservedOpcode ∧
    decode 0x14000000 = .error .reservedOpcode ∧ decode 0x1F000000 = .error .reservedOpcode ∧
    decode 0x26000000 = .error .reservedOpcode ∧ decode 0x2F000000 = .error .reservedOpcode ∧
    decode 0x34000000 = .error .reservedOpcode ∧ decode 0x3F000000 = .error .reservedOpcode ∧
    decode 0x47000000 = .error .reservedOpcode ∧ decode 0x4F000000 = .error .reservedOpcode ∧
    decode 0x55000000 = .error .reservedOpcode := by decide

/-- V30: must-be-zero fields (R78). -/
theorem test_must_be_zero :
    decode 0x52000107 = .error .mustBeZero ∧ decode 0x52010007 = .error .mustBeZero ∧
    decode 0x42000001 = .error .mustBeZero ∧ decode 0x01010000 = .error .mustBeZero ∧
    decode 0x32000001 = .error .mustBeZero ∧ decode 0x20010509 = .error .mustBeZero ∧
    decode 0x12000100 = .error .mustBeZero ∧ decode 0x5201001A = .error .mustBeZero := by decide

/-- V30: reserved kinds, selectors and targets (R79). -/
theorem test_reserved_values :
    decode 0x02000003 = .error .reservedValue ∧ decode 0x22020005 = .error .reservedValue ∧
    decode 0x5000001A = .error .reservedValue ∧ decode 0x50000003 = .error .reservedValue ∧
    decode 0x51000004 = .error .reservedValue ∧ decode 0x25000004 = .error .reservedValue := by decide

/-- 30_encoding.md, section 7: the encoder writes the spec's words. -/
theorem test_encode : encode (.stg 3 24) = 0x11000318 ∧ encode (.ren 2 25) = 0x30020019 ∧
    encode (.adv 1) = 0x32010000 ∧ encode (.isp .rf 7) = 0x22010007 ∧ encode .rst = 0x54000000 := by decide

/-- R52: a platform sends the least significant byte first. -/
theorem test_bytes : bytesOfWord 0x11000318 = [0x18, 0x03, 0x00, 0x11] ∧
    wordOfBytes [0x18, 0x03, 0x00, 0x11] = some 0x11000318 := by decide

/-- The opcode table's bit numbers are those of the command word. -/
theorem test_table_word : decodeTableWord 32 0x52000007 = some (.enc 7) ∧ decodeTableWord 32 0 = none := by decide

/-- R73 to R75: the responses of V41, V42 and V30. -/
theorem test_responses : successResponse 265 = 0x00000109 ∧ faultResponse .indexOutOfRange 26 = 0x8200001A ∧
    faultResponse .slot 4 = 0x88000004 ∧ faultResponse .illegalCommand 255 = 0x860000FF := by decide

/-! ### One-step tests on the reference machine REF (95_test_vectors.md, section 0) -/

/-- `fwd[0]` of REF as 95_test_vectors.md prints it. -/
def refFwd : List Nat :=
    [3, 10, 17, 24, 5, 12, 19, 0, 7, 14, 21, 2, 9] ++ [16, 23, 4, 11, 18, 25, 6, 13, 20, 1, 8, 15, 22]

/-- `inv[0]` of REF as 95_test_vectors.md prints it. -/
def refInv : List Nat :=
    [7, 22, 11, 0, 15, 4, 19, 8, 23, 12, 1, 16, 5] ++ [20, 9, 24, 13, 2, 17, 6, 21, 10, 25, 14, 3, 18]

/-- `25 - i`, the DSC rotor and the FLP reflector of REF as 95_test_vectors.md gives them. -/
def down : List Nat :=
    [25, 24, 23, 22, 21, 20, 19, 18, 17, 16, 15, 14, 13] ++ [12, 11, 10, 9, 8, 7, 6, 5, 4, 3, 2, 1, 0]

/-- `i`, the ASC rotor of REF. -/
def up : List Nat :=
    [0, 1, 2, 3, 4, 5, 6, 7, 8, 9, 10, 11, 12] ++ [13, 14, 15, 16, 17, 18, 19, 20, 21, 22, 23, 24, 25]

/-- The plugboard `5:9` of REF. -/
def refPlugboard : PairSet where
  paired := [false, false, false, false, false, true, false, false, false, true] ++ List.replicate 16 false
  partner := [0, 0, 0, 0, 0, 9, 0, 0, 0, 5] ++ List.replicate 16 0

/-- REF at the positions `p0, p1, p2`, its staging buffer and position list as given. -/
def refWith (p0 p1 p2 : Nat) (g : Staging) (l : List Nat) : State :=
  { engine :=
      { inst := ⟨26, 4⟩
        rotors := [⟨refFwd, refInv, p0⟩, ⟨down, down, p1⟩, ⟨up, up, p2⟩]
        plugboard := refPlugboard
        reflector := ⟨List.replicate 26 true, down⟩
        staging := g
        posList := l }
    port := ⟨[], []⟩ }

/-- REF at the positions `p0, p1, p2`: the staging buffer holds slot 0's table, the position list zeros. -/
def ref (p0 p1 p2 : Nat) : State := refWith p0 p1 p2 ⟨List.replicate 26 true, refFwd⟩ [0, 0, 0, 0]

/-- The response a command gives. -/
def answer (i : Instr) (s : State) : Option Word :=
  match exec i s with
  | .next t => t.port.responses.head?
  | .fault _ => none
  | .refused _ => none

/-- The engine after a command. -/
def after (i : Instr) (s : State) : Option Engine :=
  match exec i s with
  | .next t => some t.engine
  | .fault _ => none
  | .refused _ => none

/-- The positions after a command. -/
def positionsAfter (i : Instr) (s : State) : Option (List Nat) := (after i s).map (·.positions)

/-- V45: NEW answers 0 and empties everything. -/
theorem test_new : answer .new (ref 1 2 3) = some 0 ∧ after .new (ref 1 2 3) = some State.reset.engine := by decide

/-- R191: `N`, `NROT`, `RMAX` of REF. -/
theorem test_inf : answer (.inf .n) (ref 0 0 0) = some 0x1A ∧ answer (.inf .nrot) (ref 0 0 0) = some 3 ∧
    answer (.inf .rmax) (ref 0 0 0) = some 4 := by decide

/-- R106: after `STC` nothing is staged, and the installed slot 0 is unaffected. -/
theorem test_stc : answer .stc (ref 0 0 0) = some 0 ∧
    (after .stc (ref 0 0 0)).map (fun e => (e.staging, e.fwd 0 0)) = some (Staging.clear 26, 3) := by decide

/-- V41: `STG 3, 24`, and the order of its two range checks. -/
theorem test_stg : answer (.stg 3 24) State.reset = some 0 ∧
    (after (.stg 3 24) State.reset).map (fun e => (e.staging.isWritten 3, e.staging.entry 3)) = some (true, 24) := by
  decide
theorem test_stg_faults : answer (.stg 26 27) State.reset = some 0x8200001A ∧
    answer (.stg 3 26) State.reset = some 0x8200001A := by decide

/-- V41: lookups of slot 0 and slot 1, and the slot checked before the index. -/
theorem test_pfw : answer (.pfw 0 8) (ref 5 0 0) = some 7 ∧ answer (.pfw 0 25) (ref 0 0 0) = some 22 ∧
    answer (.pfw 0 26) (ref 0 0 0) = some 0x8200001A ∧ answer (.pfw 3 26) (ref 0 0 0) = some 0x88000003 := by decide
theorem test_pin : answer (.pin 0 7) (ref 5 0 0) = some 8 ∧ answer (.pin 0 22) (ref 0 0 0) = some 25 ∧
    answer (.pin 1 0) (ref 0 0 0) = some 25 := by decide

/-- V60: CON's faults on REF, and a new pair. -/
theorem test_con_faults : answer (.con 5 9) (ref 0 0 0) = some 0x83000005 ∧
    answer (.con 7 9) (ref 0 0 0) = some 0x83000009 ∧ answer (.con 26 5) (ref 0 0 0) = some 0x8200001A ∧
    answer (.con 5 26) (ref 0 0 0) = some 0x8200001A := by decide

/-- V42: `CON 5, 9` from an empty plugboard, and the self-pair `CON 0, 0`. -/
theorem test_con : (after (.con 5 9) State.reset).map (·.plugboard) = some refPlugboard ∧
    (after (.con 0 0) State.reset).map (fun e => (e.plugboard.isPaired 0, e.plugboard.partnerOf 0)) =
      some (true, 0) := by decide

/-- V42: naming either member removes the pair; an unpaired index is a success. -/
theorem test_dis : (after (.dis 9) (ref 0 0 0)).map (·.plugboard) = some (PairSet.empty 26) ∧
    answer (.dis 5) State.reset = some 0 := by decide
theorem test_dis_fault : answer (.dis 26) (ref 0 0 0) = some 0x8200001A := by decide

/-- S2: both directions of a pair, an unpaired index, and the reflector's `25 - v`. -/
theorem test_isp : answer (.isp .pb 5) (ref 0 0 0) = some 0x109 ∧ answer (.isp .pb 9) (ref 0 0 0) = some 0x105 ∧
    answer (.isp .pb 6) (ref 0 0 0) = some 0 ∧ answer (.isp .rf 0) (ref 0 0 0) = some 0x119 ∧
    answer (.isp .rf 25) (ref 0 0 0) = some 0x100 := by decide

/-- S3: the pair maps both ways, an unpaired index passes through. -/
theorem test_plg : answer (.plg 5) (ref 0 0 0) = some 9 ∧ answer (.plg 9) (ref 0 0 0) = some 5 ∧
    answer (.plg 7) (ref 0 0 0) = some 7 ∧ answer (.plg 26) (ref 0 0 0) = some 0x8200001A := by decide

/-- R132: `RFE 18` before and after `RFL FLP`. -/
theorem test_rfe : answer (.rfe 18) State.reset = some 0x84000012 ∧ answer (.rfe 18) (ref 0 0 0) = some 7 ∧
    answer (.rfe 26) (ref 0 0 0) = some 0x8200001A := by decide

/-- V42: `PLB FLP` replaces the whole plugboard. -/
theorem test_plb : (after (.plb .flp) (ref 0 0 0)).map (·.plugboard) = some ⟨List.replicate 26 true, down⟩ ∧
    (after (.plb .mir) (ref 0 0 0)).map (·.plugboard) = some ⟨List.replicate 26 true, up⟩ ∧
    (after (.plb .emp) (ref 0 0 0)).map (·.plugboard) = some (PairSet.empty 26) := by decide

/-- V42: the staging `3 -> 4` alone is not symmetric at 3; with `4 -> 3` it is. -/
theorem test_plb_staged :
    answer (.plb .stg) (refWith 0 0 0 ((Staging.clear 26).write 3 4) []) = some 0x87000003 ∧
    (after (.plb .stg) (refWith 0 0 0 (((Staging.clear 26).write 3 4).write 4 3) [])).map
      (fun e => (e.plugEnc 3, e.plugEnc 4, e.plugEnc 5)) = some (4, 3, 5) := by decide

/-- V43: the offset and the wrap of REN. -/
theorem test_ren : answer (.ren 0 7) (ref 1 0 0) = some 7 ∧ answer (.ren 0 25) (ref 3 0 0) = some 17 ∧
    answer (.ren 1 0) (ref 0 1 0) = some 24 := by decide
theorem test_ren_faults : answer (.ren 4 255) (ref 0 0 0) = some 0x88000004 ∧
    answer (.ren 0 26) (ref 0 0 0) = some 0x8200001A := by decide

/-- V43: the `+ N` of RDE. -/
theorem test_rde : answer (.rde 0 17) (ref 3 0 0) = some 25 ∧ answer (.rde 0 17) (ref 5 0 0) = some 23 ∧
    answer (.rde 0 0) (ref 0 0 0) = some 7 ∧ answer (.rde 3 26) (ref 0 0 0) = some 0x88000003 := by decide

/-- V43: ADV wraps to 0 and carries nowhere. -/
theorem test_adv : answer (.adv 1) (ref 21 25 0) = some 0 ∧
    positionsAfter (.adv 1) (ref 21 25 0) = some [21, 0, 0] ∧ answer (.adv 1) (ref 21 0 0) = some 1 ∧
    positionsAfter (.adv 0) (ref 25 1 0) = some [0, 1, 0] := by decide

/-- V43: SPR reduces modulo `N`. -/
theorem test_spr : positionsAfter (.spr 0 30) (ref 5 0 0) = some [4, 0, 0] ∧
    positionsAfter (.spr 0 26) (ref 4 0 0) = some [0, 0, 0] ∧
    positionsAfter (.spr 0 255) (ref 0 0 0) = some [21, 0, 0] ∧
    answer (.spr 3 0) (ref 0 0 0) = some 0x88000003 := by decide

/-- V44: SEN at two positions, no rotor advancing. -/
theorem test_sen : answer (.sen 7) (ref 0 0 0) = some 25 ∧ answer (.sen 7) (ref 1 0 0) = some 18 ∧
    positionsAfter (.sen 7) (ref 1 0 0) = some [1, 0, 0] ∧ answer (.sen 7) State.reset = some 7 := by decide

/-- V44: SDE undoes it. -/
theorem test_sde : answer (.sde 25) (ref 0 0 0) = some 7 ∧ answer (.sde 18) (ref 1 0 0) = some 7 ∧
    answer (.sde 26) (ref 1 0 0) = some 0x8200001A := by decide

/-- R177: the five carries of the rule's example and of V44. -/
theorem test_stp : positionsAfter .stp (ref 25 25 3) = some [0, 0, 4] ∧
    positionsAfter .stp (ref 25 4 3) = some [0, 5, 3] ∧ positionsAfter .stp (ref 7 25 3) = some [8, 25, 3] ∧
    positionsAfter .stp (ref 25 25 25) = some [0, 0, 0] := by decide

/-- R179. -/
theorem test_pos : answer (.pos 1) (ref 8 25 3) = some 25 ∧ answer (.pos 3) (ref 8 25 3) = some 0x88000003 := by
  decide

/-- V44: list slot 3 exists although no rotor 3, list slot 4 does not; a raw position is stored as given. -/
theorem test_plw : (after (.plw 3 99) (ref 0 0 0)).map (·.posList) = some [0, 0, 0, 99] ∧
    (after (.plw 2 30) (ref 0 0 0)).map (·.posList) = some [0, 0, 30, 0] ∧
    answer (.plw 4 0) (ref 0 0 0) = some 0x88000004 := by decide

/-- V44: SPS reduces modulo `N`, keeps the list, and wants the exact length. -/
theorem test_sps :
    positionsAfter (.sps 3) (refWith 8 25 3 (Staging.clear 26) [30, 25, 3, 99]) = some [4, 25, 3] ∧
    (after (.sps 3) (refWith 8 25 3 (Staging.clear 26) [30, 25, 3, 99])).map (·.posList) = some [30, 25, 3, 99] := by
  decide
theorem test_sps_faults : answer (.sps 4) (ref 0 0 0) = some 0x85000003 ∧
    answer (.sps 2) (ref 0 0 0) = some 0x85000003 ∧
    answer (.sps 1) State.reset = some 0x85000000 ∧ answer (.sps 0) State.reset = some 0 := by decide

/-- R182, R202. -/
theorem test_rsp : positionsAfter .rsp (ref 4 5 25) = some [0, 0, 0] ∧ answer .rsp (ref 4 5 25) = some 0 := by decide
theorem test_rst : positionsAfter .rst (ref 10 0 0) = some [0, 0, 0] ∧ answer .rst (ref 10 0 0) = some 0 := by decide

/-- V41, section 0: `ROT STG` of the staged table derives the inverse table the spec prints. -/
theorem test_rot_staged : answer (.rot .stg) (ref 1 2 3) = some 3 ∧
    (after (.rot .stg) (ref 1 2 3)).map (fun e => e.slot 3) = some ⟨refFwd, refInv, 0⟩ := by decide

/-- V41: a gap before a repeat, the smallest repeat, and a full stack. -/
theorem test_rot_faults : answer (.rot .stg) State.reset = some 0x87000000 ∧
    answer (.rot .stg) (refWith 0 0 0 ⟨List.replicate 26 true, refFwd.set 4 3⟩ []) = some 0x87000004 ∧
    answer (.rot .stg) (refWith 0 0 0 ⟨List.replicate 26 true, refFwd.set 0 9⟩ []) = some 0x8700000C ∧

    answer (.rot .asc) ⟨⟨⟨26, 3⟩, (ref 0 0 0).engine.rotors, refPlugboard, PairSet.empty 26, Staging.clear 26, []⟩, ⟨[], []⟩⟩
      = some 0x88000003 := by decide

/-- V42: `RFL FLP` installs `25 - v`; EMP and MIR never pass. -/
theorem test_rfl : (after (.rflct .flp) State.reset).map (·.reflector) = some ⟨List.replicate 26 true, down⟩ ∧
    answer (.rflct .emp) (ref 0 0 0) = some 0x87000000 ∧ answer (.rflct .mir) (ref 0 0 0) = some 0x87000000 :=
    by decide

/-- V42, `N = 5`: FLP has the fixed point 2, an unwritten index 4 and a self-pair `4:4` are refused. -/
theorem test_rfl_odd :
    answer (.rflct .flp) (State.resetOf ⟨5, 2⟩) = some 0x87000002 ∧
    answer (.rflct .stg) ⟨⟨⟨5, 2⟩, [], PairSet.empty 5, PairSet.empty 5,
      ⟨[true, true, true, true, false], [1, 0, 3, 2, 0]⟩, [0, 0]⟩, ⟨[], []⟩⟩ = some 0x87000004 ∧
    answer (.rflct .stg) ⟨⟨⟨5, 2⟩, [], PairSet.empty 5, PairSet.empty 5,
      ⟨[true, true, true, true, true], [1, 0, 3, 2, 4]⟩, [0, 0]⟩, ⟨[], []⟩⟩ = some 0x87000004 := by decide

/-- V45: five rows of the trace on REF. -/
theorem test_enc : answer (.enc 7) (ref 0 0 0) = some 16 ∧ positionsAfter (.enc 7) (ref 0 0 0) = some [1, 0, 0] ∧
    answer (.enc 7) (ref 1 0 0) = some 14 ∧ answer (.enc 5) (ref 2 0 0) = some 10 ∧
    answer (.enc 3) (ref 3 0 0) = some 14 ∧ answer (.enc 14) (ref 0 0 0) = some 5 := by decide

/-- V45: a range fault, and a fault in mid-path, leave the positions. -/
theorem test_enc_faults : answer (.enc 26) (ref 4 0 0) = some 0x8200001A ∧
    positionsAfter (.enc 26) (ref 4 0 0) = some [4, 0, 0] ∧

    answer (.enc 3) ⟨⟨⟨26, 4⟩, [⟨up, up, 4⟩], PairSet.empty 26, PairSet.empty 26, Staging.clear 26, [0, 0, 0, 0]⟩, ⟨[], []⟩⟩
      = some 0x84000008 ∧
    positionsAfter (.enc 3)
      ⟨⟨⟨26, 4⟩, [⟨up, up, 4⟩], PairSet.empty 26, PairSet.empty 26, Staging.clear 26, [0, 0, 0, 0]⟩, ⟨[], []⟩⟩
      = some [4] := by decide

/-- V45: DEC is ENC. -/
theorem test_dec : answer (.dec 0) (ref 4 0 0) = some 15 ∧ answer (.dec 16) (ref 0 0 0) = some 7 ∧
    positionsAfter (.dec 16) (ref 0 0 0) = some [1, 0, 0] := by decide

/-! ### The step, the port, the instance -/

/-- The state after one step. -/
def stateAfter (s : State) : Option State :=
  match step s with
  | .next t => some t
  | .fault _ => none
  | .refused _ => none

/-- The responses and the events still to come after one step. -/
def portAfter (s : State) : Option (List Word × List HostEvent) :=
  (stateAfter s).map fun t => (t.port.responses, t.port.pending)

/-- A word placed by `withFetchWord` is the very next command after reset (V45: `INF N`). -/
theorem test_withFetchWord : portAfter (State.reset.withFetchWord 32 0x02000000) = some ([0x1A], []) := by decide

/-- V30: words that are no command, through the step. -/
theorem test_illegal_step : portAfter (State.reset.withFetchWord 32 0xFFFFFFFF) = some ([0x860000FF], []) ∧
    portAfter (State.reset.withFetchWord 32 0x5201001A) = some ([0x86000052], []) := by decide

/-- R250: a reset in the middle of a command gives no response and abandons the command. -/
theorem test_reset_event : stateAfter ((ref 1 2 3).withPending [.resetDuring 0x52000007, .reset]) =
    some (State.reset.withPending [.reset]) := by decide

/-- R6: there is no instance with `N = 0`, nor with `N = 257`, `RMAX = 0` or `RMAX = 256`. -/
theorem test_no_instance : step (State.resetOf ⟨0, 1⟩) = .refused .noSuchInstance ∧
    ¬ Instance.Valid ⟨257, 1⟩ ∧ ¬ Instance.Valid ⟨26, 0⟩ ∧ ¬ Instance.Valid ⟨26, 256⟩ :=
    ⟨rfl, by decide, by decide, by decide⟩

/-- R6: `IW`. -/
theorem test_index_width : (Instance.mk 26 4).indexWidth = 5 ∧ (Instance.mk 1 1).indexWidth = 1 ∧
    (Instance.mk 2 1).indexWidth = 1 ∧ (Instance.mk 256 1).indexWidth = 8 := by decide

/-- R82, R83: the notation and an expansion. -/
theorem test_assembler : assemblerText (.isp .rf 7) = "ISP RF, 7" ∧ assemblerText (.rflct .flp) = "RFL FLP" ∧
    assemblerText (.stg 3 24) = "STG 3, 24" := by decide
theorem test_pseudo : expandPseudo (.prs [(0, 1), (4, 4)]) = [.stc, .stg 0 1, .stg 1 0, .stg 4 4] ∧
    expandPseudo (.tbl [1, 0]) = [.stc, .stg 0 1, .stg 1 0] ∧
    expandPseudo (.setpos [7, 30]) = [.plw 0 7, .plw 1 30, .sps 2] ∧ expandPseudo (.rrs 2) = [.spr 2 0] := by decide

/-! ### Witnesses: the hypotheses of every obligation can be met, each clause at the edge of its range -/

/-- A small machine, `N = 4`, `RMAX = 3`: two rotors at 3 and 1, plugboard `0:1`, reflector `0:3`, `1:2`, the staging
buffer and the reflector as given. -/
def tinyWith (g : Staging) (r : PairSet) : State :=
  { engine :=
      { inst := ⟨4, 3⟩
        rotors := [⟨[1, 2, 3, 0], [3, 0, 1, 2], 3⟩, ⟨[3, 2, 1, 0], [3, 2, 1, 0], 1⟩]
        plugboard := ⟨[true, true, false, false], [1, 0, 0, 0]⟩
        reflector := r
        staging := g
        posList := [7, 255, 0] }
    port := ⟨[], [0]⟩ }

/-- The reflector `0:3`, `1:2`. -/
def tinyReflector : PairSet := ⟨[true, true, true, true], [3, 2, 1, 0]⟩

/-- Nothing staged. -/
def tiny : State := tinyWith ⟨[false, false, false, false], [0, 0, 0, 0]⟩ tinyReflector

/-- The pairing `0:1` staged in both directions. -/
def tinyPaired : State := tinyWith ⟨[true, true, false, false], [1, 0, 0, 0]⟩ tinyReflector

/-- `2 -> 3` staged, but not `3 -> 2`; no reflector. -/
def tinyOneWay : State := tinyWith ⟨[true, true, true, false], [1, 0, 3, 0]⟩ (PairSet.empty 4)

/-- The table `1, 0, 3, 2` staged: a permutation, and a total pairing without fixed points. -/
def tinyTotal : State := tinyWith ⟨[true, true, true, true], [1, 0, 3, 2]⟩ tinyReflector

/-- Every entry staged, entry 3 repeating entry 0. -/
def tinyRepeat : State := tinyWith ⟨[true, true, true, true], [1, 0, 3, 1]⟩ tinyReflector

/-- `0:1` and the self-pair `3:3` staged, 2 not. -/
def tinyPartial : State := tinyWith ⟨[true, true, false, true], [1, 0, 0, 3]⟩ tinyReflector

/-- `N = 5`: no rotor, no reflector, `RMAX = 1`. -/
def odd : State := State.resetOf ⟨5, 1⟩

/-- All three slots of `tiny` installed, all at 0. -/
def full : State :=
  { tiny with engine := { tiny.engine with rotors := List.replicate 3 ⟨[0, 1, 2, 3], [0, 1, 2, 3], 0⟩ } }

/-- `0:1`, `2:2`, `3:3` staged: symmetric, and index 2 is the first that reflects nothing. -/
def tinySelf : State := tinyWith ⟨[true, true, true, true], [1, 0, 2, 3]⟩ tinyReflector

theorem safe_tiny : tiny.Safe :=
  ⟨by decide, by decide, by decide, by decide, by decide, by decide, by decide, by decide, by decide⟩
theorem safe_tinyPaired : tinyPaired.Safe :=
  ⟨by decide, by decide, by decide, by decide, by decide, by decide, by decide, by decide, by decide⟩
theorem safe_tinyOneWay : tinyOneWay.Safe :=
  ⟨by decide, by decide, by decide, by decide, by decide, by decide, by decide, by decide, by decide⟩
theorem safe_tinyTotal : tinyTotal.Safe :=
  ⟨by decide, by decide, by decide, by decide, by decide, by decide, by decide, by decide, by decide⟩
theorem safe_tinyPartial : tinyPartial.Safe :=
  ⟨by decide, by decide, by decide, by decide, by decide, by decide, by decide, by decide, by decide⟩
theorem safe_tinySelf : tinySelf.Safe :=
  ⟨by decide, by decide, by decide, by decide, by decide, by decide, by decide, by decide, by decide⟩
theorem safe_odd : odd.Safe :=
  ⟨by decide, by decide, by decide, by decide, by decide, by decide, by decide, by decide, by decide⟩
theorem safe_full : full.Safe :=
  ⟨by decide, by decide, by decide, by decide, by decide, by decide, by decide, by decide, by decide⟩

/-- Operands at both ends of a field. -/
theorem witness_DecodeOfEncodeIsTheInstruction :
    (Instr.stg 255 0).WellFormed ∧ (Instr.ren 0 255).WellFormed ∧ (Instr.rflct .stg).WellFormed := by decide

theorem witness_EncodeOfDecodeIsTheWord : decode 0x1100FF00 = .ok (.stg 255 0) := by decide

theorem witness_DecoderAcceptsExactlyTheLegalWords :
    LegalWord 0x51000003 ∧ ¬ LegalWord 0x51000004 ∧ LegalWord 0x22010007 ∧ ¬ LegalWord 0x22020007 ∧
    ¬ LegalWord 0x3203FFFF ∧ ¬ LegalWord 0x55000000 := by decide

theorem witness_StepRunsTheDecodedInstruction :
    (tiny.withPending [.command 0x52000003, .reset]).engine.inst.Valid ∧
    (tiny.withPending [.command 0x52000003, .reset]).port.pending = .command 0x52000003 :: [.reset] ∧
    decode 0x52000003 = .ok (.enc 3) := by decide

theorem witness_IllegalWordFaultsWithItsOpcode :
    (tiny.withPending [.command 0xFFFFFFFF]).engine.inst.Valid ∧
    (tiny.withPending [.command 0xFFFFFFFF]).port.pending = .command 0xFFFFFFFF :: [] ∧ ¬ LegalWord 0xFFFFFFFF := by
  decide

theorem witness_EngineWithoutCommandDoesNothing : tiny.engine.inst.Valid ∧ tiny.port.pending = [] := by decide

theorem witness_ResetEventGivesTheResetState :
    (tiny.withPending [.reset, .reset]).engine.inst.Valid ∧
    ((tiny.withPending [.reset, .reset]).port.pending = .reset :: [.reset]) ∧
    ((tiny.withPending [.resetDuring 0x52000003]).port.pending = .resetDuring 0x52000003 :: []) := by decide

theorem witness_EveryCommandWordGetsOneResponse :
    (tiny.withPending [.command 0x00000000]).engine.inst.Valid ∧
    (tiny.withPending [.command 0x00000000]).port.pending = .command 0x00000000 :: [] := by decide

/-- Entry numbers at the edges of the tables of the smallest and the largest instance. -/
theorem witness_ResetLeavesTheSpecValues :
    (0 : Nat) < (Instance.mk 1 1).n ∧ 0 < (Instance.mk 1 1).rmax ∧ 255 < (Instance.mk 256 255).n ∧
    254 < (Instance.mk 256 255).rmax := by decide

theorem witness_ResetStateIsSafe : (Instance.mk 1 1).Valid ∧ (Instance.mk 256 255).Valid ∧
    Config.reference.Valid := by
  decide

theorem witness_EveryStepKeepsTheInvariants :
    (tiny.withPending [.command 0x52000003]).Safe ∧
    ∃ t, step (tiny.withPending [.command 0x52000003]) = .next t := ⟨safe_tiny, _, rfl⟩

theorem witness_InstanceConstantsNeverChange : ∃ t, step (tiny.withPending [.command 0x01000000]) = .next t :=
  ⟨_, rfl⟩

theorem witness_InstalledWiringIsNeverModified :
    Instr.rot .asc ≠ .new ∧ (∃ t, exec (.rot .asc) tiny = .next t) ∧ 1 < tiny.engine.nrot :=
  ⟨by decide, ⟨_, rfl⟩, by decide⟩

theorem witness_OnlyTheNamedCommandsWriteEachPart :
    (∃ t, exec (.rot .asc) tiny = .next t) ∧ writesPositions (.rot .asc) = false ∧ 1 < tiny.engine.nrot ∧
    writesPlugboard (.rot .asc) = false ∧ writesReflector (.rot .asc) = false ∧ writesStaging (.rot .asc) = false ∧
    writesPosList (.rot .asc) = false ∧ (∃ t, exec .stp tiny = .next t) ∧ writesNrot .stp = false :=
  ⟨⟨_, rfl⟩, by decide, by decide, by decide, by decide, by decide, by decide, ⟨_, rfl⟩, by decide⟩

theorem witness_FaultingCommandsLeaveNoTrace :
    (tiny.withPending [.command 0x5200001A]).port.pending = .command 0x5200001A :: [] ∧
    portAfter (tiny.withPending [.command 0x5200001A]) = some (0x8200001A :: tiny.port.responses, []) ∧
    responseFault 0x8200001A = true := by decide

theorem witness_CommandsRaiseOnlyTheirRowOfTheFaultMatrix :
    (∃ t, exec (.enc 26) tiny = .next t) ∧ ∃ t, exec (.enc 3) tiny = .next t := ⟨⟨_, rfl⟩, ⟨_, rfl⟩⟩

theorem witness_CommandsDependOnTheEngineOnly :
    tiny.engine = (tiny.withPending [.reset]).engine ∧ ∃ t, exec (.enc 3) tiny = .next t := ⟨rfl, ⟨_, rfl⟩⟩

/-- `v` is the first value out of range, `w` the last one in range, `k` the last installed slot. -/
theorem witness_IndexOperandsOutOfRangeFault : tiny.engine.n ≤ 4 ∧ 3 < tiny.engine.n ∧ 1 < tiny.engine.nrot :=
    by decide

/-- The first slot not installed, the first list slot that does not exist, and a full stack. -/
theorem witness_UnusableSlotsFault : tiny.engine.nrot ≤ 2 ∧ tiny.engine.rmax ≤ 3 ∧
    full.engine.nrot = full.engine.rmax := by decide

theorem witness_StcAndStgWriteTheStagingBuffer : tiny.Safe ∧ 3 < tiny.engine.n ∧ 0 < tiny.engine.n :=
    ⟨safe_tiny, by decide⟩

theorem witness_PfwAndPinReadTheWiring : 1 < tiny.engine.nrot ∧ 3 < tiny.engine.n := by decide

theorem witness_PermutationLookupsUndoEachOther : tiny.Safe ∧ 1 < tiny.engine.nrot ∧ 3 < tiny.engine.n :=
    ⟨safe_tiny, by decide⟩

/-- Two different indices, and the self-pair of the last index. -/
theorem witness_ConPairsTwoUnpairedIndices : tiny.Safe ∧ 2 < tiny.engine.n ∧ 3 < tiny.engine.n ∧
    tiny.engine.plugboard.isPaired 2 = false ∧ tiny.engine.plugboard.isPaired 3 = false := ⟨safe_tiny, by decide⟩

/-- `a` paired (with `b` itself), and only `b` paired. -/
theorem witness_ConOfAPairedIndexConflicts : 0 < tiny.engine.n ∧ 3 < tiny.engine.n ∧
    tiny.engine.plugboard.isPaired 0 = true ∧ tiny.engine.plugboard.isPaired 3 = false := by decide

theorem witness_DisUnpairsBothMembers : tiny.Safe ∧ 0 < tiny.engine.n ∧ 3 < tiny.engine.n ∧
    tiny.engine.plugboard.isPaired 3 = false ∧ tiny.engine.plugboard.isPaired 0 = true := ⟨safe_tiny, by decide⟩

theorem witness_IspReportsThePairing : 3 < tiny.engine.n ∧ tiny.engine.plugboard.isPaired 0 = true ∧
    tiny.engine.plugboard.isPaired 3 = false ∧ tiny.engine.reflector.isPaired 3 = true ∧
    tinyOneWay.engine.reflector.isPaired 3 = false := by decide

theorem witness_PlgPassesUnpairedIndicesThrough : tiny.Safe ∧ 3 < tiny.engine.n ∧
    tiny.engine.plugboard.isPaired 0 = true ∧ tiny.engine.plugboard.isPaired 3 = false := ⟨safe_tiny, by decide⟩

theorem witness_RfeReadsThePartner : tiny.Safe ∧ 3 < tiny.engine.n ∧ tiny.engine.reflector.isPaired 3 = true ∧
    tinyOneWay.engine.reflector.isPaired 3 = false ∧ ¬ tiny.engine.reflector.Empty tiny.engine.n :=
    ⟨safe_tiny, by decide⟩

theorem witness_PlbReplacesThePlugboard : tinyPaired.Safe ∧
    (∀ v, v < tinyPaired.engine.n → tinyPaired.engine.staging.isWritten v = true →
      tinyPaired.engine.staging.isWritten (tinyPaired.engine.staging.entry v) = true ∧
      tinyPaired.engine.staging.entry (tinyPaired.engine.staging.entry v) = v) := ⟨safe_tinyPaired, by decide⟩

theorem witness_AsymmetricStagingIsRefused : tinyOneWay.Safe ∧ 2 < tinyOneWay.engine.n ∧
    (tinyOneWay.engine.staging.isWritten 2 = true ∧
      ¬ (tinyOneWay.engine.staging.isWritten (tinyOneWay.engine.staging.entry 2) = true ∧
        tinyOneWay.engine.staging.entry (tinyOneWay.engine.staging.entry 2) = 2)) ∧
    (∀ u, u < 2 → tinyOneWay.engine.staging.isWritten u = true →
      tinyOneWay.engine.staging.isWritten (tinyOneWay.engine.staging.entry u) = true ∧
      tinyOneWay.engine.staging.entry (tinyOneWay.engine.staging.entry u) = u) := ⟨safe_tinyOneWay, by decide⟩

theorem witness_RenAndRdeUseTheOffset : 1 < tiny.engine.nrot ∧ 3 < tiny.engine.n := by decide

/-- Slot 0 stands at `N - 1`. -/
theorem witness_RotorRoundTripAtAnyPosition : tiny.Safe ∧ 0 < tiny.engine.nrot ∧ 3 < tiny.engine.n ∧
    tiny.engine.pos 0 = tiny.engine.n - 1 := ⟨safe_tiny, by decide⟩

theorem witness_AdvAndSprMoveOneRotor : 0 < tiny.engine.nrot ∧ 1 < tiny.engine.nrot := by decide

theorem witness_ReductionIsOneCompareAndSubtract : tiny.engine.Inv ∧ 0 < tiny.engine.nrot ∧ 3 < tiny.engine.n :=
    ⟨safe_tiny, by decide⟩

theorem witness_SenAndSdeFoldInSlotOrder : 3 < tiny.engine.n := by decide

theorem witness_StackRoundTrip : (tiny.Safe ∧ 3 < tiny.engine.n) ∧ odd.Safe ∧ 4 < odd.engine.n ∧
    odd.engine.nrot = 0 :=
  ⟨⟨safe_tiny, by decide⟩, safe_odd, by decide⟩

/-- Rotor 1 advances because rotor 0 stands at `N - 1`; a rotor above rotor 1 would not. -/
theorem witness_StpIsTheOdometerStep : 1 < tiny.engine.nrot ∧ tiny.engine.advances 1 ∧ 1 < full.engine.nrot ∧
    ¬ full.engine.advances 1 := by decide

theorem witness_StpAddsOneToTheOdometer : tiny.Safe := safe_tiny

/-- The smallest alphabet, and a vector of maximum positions in the largest; a count of steps inside a period. -/
theorem witness_OdometerPeriods :
    ((1 : Nat) ≤ 1 ∧ 0 < 1 ∧ (∀ x ∈ [0, 0], x < 1) ∧ ∀ x ∈ [0], x < 1) ∧
    ((1 : Nat) ≤ 256 ∧ 255 < 256 ∧ (∀ x ∈ [255], x < 256) ∧ ∀ x ∈ [255, 0], x < 256) ∧
    0 < 255 ∧ 255 < 256 ^ [255].length := by decide

theorem witness_PlwWritesOneListElement : tiny.Safe ∧ 2 < tiny.engine.rmax := ⟨safe_tiny, by decide⟩

theorem witness_SpsAppliesTheListOfTheRightLength : 2 = tiny.engine.nrot ∧ 3 ≠ tiny.engine.nrot ∧
    1 ≠ tiny.engine.nrot ∧
    1 < tiny.engine.nrot := by decide

theorem witness_RspAndRstZeroThePositions : 1 < tiny.engine.nrot := by decide

theorem witness_InfAndPosReadTheRegisters : 1 < tiny.engine.nrot := by decide

theorem witness_RotAppendsARotor : tinyTotal.Safe ∧ tinyTotal.engine.nrot < tinyTotal.engine.rmax ∧
    (∀ i, i < tinyTotal.engine.n → tinyTotal.engine.staging.isWritten i = true) ∧
    (∀ i, i < tinyTotal.engine.n → ∀ j, j < i →
      tinyTotal.engine.staging.entry j ≠ tinyTotal.engine.staging.entry i) := ⟨safe_tinyTotal, by decide⟩

/-- A gap at the first entry, and a repeat at the last. -/
theorem witness_RotRefusesAStagedTableThatIsNoPermutation :
    (tiny.engine.nrot ≠ tiny.engine.rmax ∧ 0 < tiny.engine.n ∧ tiny.engine.staging.isWritten 0 = false ∧
      (∀ j, j < 0 → tiny.engine.staging.isWritten j = true)) ∧
    (tinyRepeat.engine.nrot ≠ tinyRepeat.engine.rmax ∧ 3 < tinyRepeat.engine.n ∧
      (∀ j, j < tinyRepeat.engine.n → tinyRepeat.engine.staging.isWritten j = true) ∧
      tinyRepeat.engine.staging.entry 0 = tinyRepeat.engine.staging.entry 3 ∧
      (∀ h, h < 3 → ∀ j, j < h →
        tinyRepeat.engine.staging.entry j ≠ tinyRepeat.engine.staging.entry h)) := by decide

theorem witness_RflInstallsALegalReflector : tinyTotal.Safe ∧ tinyTotal.engine.n % 2 = 0 ∧
    (∀ v, v < tinyTotal.engine.n → tinyTotal.engine.staging.isWritten v = true ∧
      tinyTotal.engine.staging.entry v ≠ v ∧
      tinyTotal.engine.staging.entry (tinyTotal.engine.staging.entry v) = v) := ⟨safe_tinyTotal, by decide⟩

theorem witness_RflRefusesAnIllegalReflector_odd : odd.Safe ∧ odd.engine.n % 2 = 1 := ⟨safe_odd, by decide⟩

theorem witness_RflRefusesAnIllegalReflector_staged : tinySelf.Safe ∧ 2 < tinySelf.engine.n ∧
    (∀ u, u < tinySelf.engine.n → tinySelf.engine.staging.isWritten u = true →
      tinySelf.engine.staging.isWritten (tinySelf.engine.staging.entry u) = true ∧
      tinySelf.engine.staging.entry (tinySelf.engine.staging.entry u) = u) ∧
    (tinySelf.engine.staging.isWritten 2 = false ∨ tinySelf.engine.staging.entry 2 = 2) ∧
    (∀ u, u < 2 → tinySelf.engine.staging.isWritten u = true ∧ tinySelf.engine.staging.entry u ≠ u) :=
    ⟨safe_tinySelf, by decide⟩

/-- The other half of the same clause: index 2 not written. -/
theorem witness_RflRefusesAnIllegalReflector_unwritten : tinyPartial.Safe ∧ 2 < tinyPartial.engine.n ∧
    (∀ u, u < tinyPartial.engine.n → tinyPartial.engine.staging.isWritten u = true →
      tinyPartial.engine.staging.isWritten (tinyPartial.engine.staging.entry u) = true ∧
      tinyPartial.engine.staging.entry (tinyPartial.engine.staging.entry u) = u) ∧
    (tinyPartial.engine.staging.isWritten 2 = false ∨ tinyPartial.engine.staging.entry 2 = 2) ∧
    (∀ u, u < 2 → tinyPartial.engine.staging.isWritten u = true ∧ tinyPartial.engine.staging.entry u ≠ u) :=
    ⟨safe_tinyPartial, by decide⟩

theorem witness_AReflectorNeedsEvenN : tiny.Safe ∧ ¬ tiny.engine.reflector.Empty tiny.engine.n :=
    ⟨safe_tiny, by decide⟩

theorem witness_EncAndDecStepThenRunThePath : tiny.Safe ∧ ¬ tiny.engine.reflector.Empty tiny.engine.n ∧
    3 < tiny.engine.n := ⟨safe_tiny, by decide⟩

theorem witness_EncWithoutReflectorFaultsAndDoesNotStep :
    tinyOneWay.engine.reflector.Empty tinyOneWay.engine.n ∧ tinyOneWay.Safe ∧ 3 < tinyOneWay.engine.n ∧
    ∃ t, exec .stp tinyOneWay = .next t := ⟨by decide, safe_tinyOneWay, by decide, ⟨_, rfl⟩⟩

theorem witness_ThePathIsReciprocalAtFixedPositions : tiny.engine.Inv ∧
    ¬ tiny.engine.reflector.Empty tiny.engine.n ∧ [3, 0].length = tiny.engine.nrot ∧
    (∀ q ∈ [3, 0], q < tiny.engine.n) ∧ 3 < tiny.engine.n := ⟨safe_tiny, by decide⟩

/-- `full` with another position list. -/
def fullOtherList : State := { full with engine := { full.engine with posList := [1, 2, 3] } }

/-- The second run starts from another position list. -/
theorem witness_MessagesAreReciprocal :
    fullOtherList.engine = { full.engine with
      staging := fullOtherList.engine.staging, posList := fullOtherList.engine.posList } ∧
    full.Safe ∧ ¬ full.engine.reflector.Empty full.engine.n ∧ (∀ x ∈ [0, 3, 3], x < full.engine.n) ∧
    (∀ k, k < full.engine.nrot → full.engine.pos k = 0) := ⟨rfl, safe_full, by decide⟩

theorem witness_TblStagesTheWholeTable : tiny.Safe ∧ [3, 3, 0, 1].length = tiny.engine.n ∧
    ∀ d ∈ [3, 3, 0, 1], d < tiny.engine.n := ⟨safe_tiny, by decide⟩

theorem witness_SetposAndRrsSetPositions : tiny.Safe ∧ [255, 4].length = tiny.engine.nrot ∧
    1 < tiny.engine.nrot := ⟨safe_tiny, by decide⟩

theorem witness_PrsStagesPairsInBothDirections : tiny.Safe ∧
    (∀ ab ∈ [(0, 3), (2, 2)], ab.1 < tiny.engine.n ∧ ab.2 < tiny.engine.n) ∧
    [(0, 3), (2, 2)].Pairwise (fun x y => x.1 ≠ y.1 ∧ x.1 ≠ y.2 ∧ x.2 ≠ y.1 ∧ x.2 ≠ y.2) := ⟨safe_tiny, by decide⟩

end Sys2Proof.Tests
end

section
/-! The reduction modulo `N` of the rotors and the stepper (R152, R153). -/

namespace Sys2Proof.Machine

/-- Below `2N` the remainder takes one comparison and one subtraction (R153). -/
theorem mod_eq_ite_sub_of_lt_two_mul {n x : Nat} (hx : x < 2 * n) : x % n = if x < n then x else x - n := by
  split
  · next h => exact Nat.mod_eq_of_lt h
  · next h => rw [Nat.mod_eq_sub_mod (by omega), Nat.mod_eq_of_lt (by omega)]

/-- R6: an index takes at most 8 bits, so a number up to `2N - 1` takes at most 9. -/
theorem Engine.Inv.n_le {e : Engine} (h : e.Inv) : e.n ≤ 256 := by
  obtain ⟨⟨_, hn, _⟩, _⟩ := h
  exact hn

/-- I-POS of an installed slot. -/
theorem Engine.Inv.pos_lt {e : Engine} (h : e.Inv) {k : Nat} (hk : k < e.nrot) : e.pos k < e.n := by
  obtain ⟨_, _, _, hpos, _⟩ := h
  exact hpos k hk

/-- I-PERM bounds the inverse table of an installed slot. -/
theorem Engine.Inv.inv_lt {e : Engine} (h : e.Inv) {k v : Nat} (hk : k < e.nrot) (hv : v < e.n) :
    e.inv k v < e.n := by
  obtain ⟨_, _, _, _, hperm, _⟩ := h
  obtain ⟨_, hi, _⟩ := hperm k hk v hv
  exact hi

/-- Settles O36: with the position, the operand and the inverse entry below `N ≤ 256`, each value to be reduced is
below `2N`. -/
theorem reductionIsOneCompareAndSubtract : Obligations.ReductionIsOneCompareAndSubtract := by
  intro e k v hinv hk hv
  have hn := hinv.n_le
  have hpos := hinv.pos_lt hk
  have hi := hinv.inv_lt hk hv
  refine ⟨⟨by omega, by omega, mod_eq_ite_sub_of_lt_two_mul (by omega)⟩, ⟨by omega, by omega, ?_⟩, by omega, ?_⟩
  · have hwrap : e.inv k v + e.n - e.pos k - e.n = e.inv k v - e.pos k := by omega
    rw [mod_eq_ite_sub_of_lt_two_mul (by omega), hwrap]
  · have hwrap : e.pos k + 1 - e.n = 0 := by omega
    rw [mod_eq_ite_sub_of_lt_two_mul (by omega), hwrap]

end Sys2Proof.Machine
end

section
/-! The operands of a decoded command are 8-bit values (R71, R72). -/

namespace Sys2Proof

variable {w : Word} {i j : Instr}

theorem formatZ_wellFormed (h : formatZ w i = .ok j) (hi : i.WellFormed) : j.WellFormed := by
  obtain ⟨-, rfl⟩ := formatZ_eq_ok.mp h
  exact hi

theorem formatA_wellFormed {f : Nat → Instr} (h : formatA w f = .ok j) (hf : ∀ a, a < 256 → (f a).WellFormed) :
    j.WellFormed := by
  obtain ⟨-, rfl⟩ := formatA_eq_ok.mp h
  exact hf _ (fieldA_lt w)

theorem formatBC_wellFormed {f : Nat → Nat → Instr} (h : formatBC w f = .ok j)
    (hf : ∀ b c, b < 256 → c < 256 → (f b c).WellFormed) : j.WellFormed := by
  obtain ⟨-, rfl⟩ := formatBC_eq_ok.mp h
  exact hf _ _ (fieldB_lt w) (fieldC_lt w)

/-- Format C with an operand of any 8-bit value. -/
theorem formatC_wellFormed {f : Nat → Instr} (h : formatC w (fun c => some (f c)) = .ok j)
    (hf : ∀ c, c < 256 → (f c).WellFormed) : j.WellFormed := by
  obtain ⟨-, hj⟩ := formatC_eq_ok.mp h
  cases hj
  exact hf _ (fieldC_lt w)

/-- Format C with a named value of R79. -/
theorem formatC_named_wellFormed {α : Type} {d : Nat → Option α} {f : α → Instr}
    (h : formatC w (fun c => (d c).map f) = .ok j) (hf : ∀ x, (f x).WellFormed) : j.WellFormed := by
  obtain ⟨-, hj⟩ := formatC_eq_ok.mp h
  obtain ⟨x, -, rfl⟩ := Option.map_eq_some_iff.mp hj
  exact hf x

/-- Format AC with two operands of any 8-bit value. -/
theorem formatAC_wellFormed {f : Nat → Nat → Instr} (h : formatAC w (fun a c => some (f a c)) = .ok j)
    (hf : ∀ a c, a < 256 → c < 256 → (f a c).WellFormed) : j.WellFormed := by
  obtain ⟨-, hj⟩ := formatAC_eq_ok.mp h
  cases hj
  exact hf _ _ (fieldA_lt w) (fieldC_lt w)

/-- Format AC with a named value of R79 in `A`. -/
theorem formatAC_named_wellFormed {α : Type} {d : Nat → Option α} {f : α → Nat → Instr}
    (h : formatAC w (fun a c => (d a).map fun x => f x c) = .ok j)
    (hf : ∀ x c, c < 256 → (f x c).WellFormed) : j.WellFormed := by
  obtain ⟨-, hj⟩ := formatAC_eq_ok.mp h
  obtain ⟨x, -, rfl⟩ := Option.map_eq_some_iff.mp hj
  exact hf x _ (fieldC_lt w)

/-- A command with one 8-bit operand is well formed. -/
theorem operandOk_of_lt {a : Nat} (ha : a < 256) : operandOk a = true := operandOk_iff.mpr ha

/-- A command with two 8-bit operands is well formed. -/
theorem operandsOk_of_lt {a b : Nat} (ha : a < 256) (hb : b < 256) : (operandOk a && operandOk b) = true :=
  Bool.and_eq_true_iff.mpr ⟨operandOk_of_lt ha, operandOk_of_lt hb⟩

/-- Every command the decoder accepts is well formed (R72, R81); the cases are the rows of R77 in order. -/
theorem decode_wellFormed (h : decode w = .ok i) : i.WellFormed := by
  unfold decode at h
  split at h
  · exact formatZ_wellFormed h rfl
  · exact formatC_named_wellFormed h fun _ => rfl
  · exact formatZ_wellFormed h rfl
  · exact formatBC_wellFormed h fun _ _ => operandsOk_of_lt
  · exact formatAC_wellFormed h fun _ _ => operandsOk_of_lt
  · exact formatAC_wellFormed h fun _ _ => operandsOk_of_lt
  · exact formatBC_wellFormed h fun _ _ => operandsOk_of_lt
  · exact formatC_wellFormed h fun _ => operandOk_of_lt
  · exact formatAC_named_wellFormed h fun _ _ => operandOk_of_lt
  · exact formatC_wellFormed h fun _ => operandOk_of_lt
  · exact formatC_wellFormed h fun _ => operandOk_of_lt
  · exact formatC_named_wellFormed h fun _ => rfl
  · exact formatAC_wellFormed h fun _ _ => operandsOk_of_lt
  · exact formatAC_wellFormed h fun _ _ => operandsOk_of_lt
  · exact formatA_wellFormed h fun _ => operandOk_of_lt
  · exact formatAC_wellFormed h fun _ _ => operandsOk_of_lt
  · exact formatC_wellFormed h fun _ => operandOk_of_lt
  · exact formatC_wellFormed h fun _ => operandOk_of_lt
  · exact formatZ_wellFormed h rfl
  · exact formatA_wellFormed h fun _ => operandOk_of_lt
  · exact formatAC_wellFormed h fun _ _ => operandsOk_of_lt
  · exact formatC_wellFormed h fun _ => operandOk_of_lt
  · exact formatZ_wellFormed h rfl
  · exact formatC_named_wellFormed h fun _ => rfl
  · exact formatC_named_wellFormed h fun _ => rfl
  · exact formatC_wellFormed h fun _ => operandOk_of_lt
  · exact formatC_wellFormed h fun _ => operandOk_of_lt
  · exact formatZ_wellFormed h rfl
  · cases h

end Sys2Proof
end

section
/-! The values that commands write keep the statements of R35: pairing sets (R122, R126, R127), the staging buffer
(R106, R107), the position vectors (R156, R157, R175, R181, R182), the position list (R180), a rotor (R194). -/

namespace Sys2Proof.Machine

/-! ### Pairing sets -/

/-- Both tables of a pairing set have `n` entries (R26, R27). -/
def PairSet.SizedFor (s : PairSet) (n : Nat) : Prop := s.paired.length = n ∧ s.partner.length = n

theorem PairSet.SizedFor.connect {s : PairSet} {n : Nat} (h : s.SizedFor n) (a b : Nat) :
    (s.connect a b).SizedFor n := by
  simpa [PairSet.SizedFor] using h

theorem PairSet.SizedFor.disconnect {s : PairSet} {n : Nat} (h : s.SizedFor n) (a : Nat) :
    (s.disconnect a).SizedFor n := by
  simpa [PairSet.SizedFor] using h

/-- CON of two unpaired indices keeps the pairing symmetric (R126). -/
theorem PairSet.Matching.connect {s : PairSet} {n a b : Nat} (hs : s.SizedFor n) (h : s.Matching n) (ha : a < n)
    (hb : b < n) (hua : s.isPaired a = false) (hub : s.isPaired b = false) : (s.connect a b).Matching n := by
  obtain ⟨h1, h2⟩ := hs
  have paired := s.connect_isPaired (h1.symm ▸ ha) (h1.symm ▸ hb)
  have partner := s.connect_partnerOf (h2.symm ▸ ha) (h2.symm ▸ hb)
  intro v hv
  by_cases hva : v = a ∨ v = b
  · have hlt : (s.connect a b).partnerOf v < n := by
      rw [partner]
      split_ifs <;> omega
    have hback : (s.connect a b).partnerOf v = a ∨ (s.connect a b).partnerOf v = b := by
      rw [partner]
      split_ifs <;> simp_all
    have hinv : (s.connect a b).partnerOf ((s.connect a b).partnerOf v) = v := by
      rw [partner v, partner]
      split_ifs <;> simp_all
    simp [paired, hva, hlt, hback, hinv]
  · obtain ⟨hpair, hfree⟩ := h v hv
    push Not at hva
    simp only [paired, partner, hva, or_self, if_false]
    refine ⟨fun hp => ?_, hfree⟩
    obtain ⟨hlt, hback, hinv⟩ := hpair hp
    have hna : s.partnerOf v ≠ a := fun he => by simp [he, hua] at hback
    have hnb : s.partnerOf v ≠ b := fun he => by simp [he, hub] at hback
    simp [hlt, hback, hinv, hna, hnb]

/-- DIS keeps the pairing symmetric (R127). -/
theorem PairSet.Matching.disconnect {s : PairSet} {n a : Nat} (hs : s.SizedFor n) (h : s.Matching n) (ha : a < n) :
    (s.disconnect a).Matching n := by
  cases hp : s.isPaired a
  · rwa [s.disconnect_of_unpaired hp]
  · obtain ⟨h1, h2⟩ := hs
    obtain ⟨hu, -, hua⟩ := (h a ha).1 hp
    have paired := s.disconnect_isPaired hp (h1.symm ▸ ha) (h1.symm ▸ hu)
    have partner := s.disconnect_partnerOf hp (h2.symm ▸ ha) (h2.symm ▸ hu)
    intro v hv
    by_cases hva : v = a ∨ v = s.partnerOf a
    · simp [paired, partner, hva]
    · obtain ⟨hpair, hfree⟩ := h v hv
      simp only [paired, partner, hva, if_false]
      refine ⟨fun hpv => ?_, hfree⟩
      obtain ⟨hlt, hback, hinv⟩ := hpair hpv
      have hne : ¬ (s.partnerOf v = a ∨ s.partnerOf v = s.partnerOf a) := by
        rintro (he | he)
        · exact hva (.inr (by rw [← he, hinv]))
        · exact hva (.inl (by rw [← hinv, he, hua]))
      simp [hlt, hback, hinv, hne]

/-- Every candidate of R122 pairs indices with indices, and has partner 0 where unpaired. -/
theorem Engine.pairCand_partnerOf {e : Engine} (hg : e.IStg) (kind : PairKind) {v : Nat} (hv : v < e.n) :
    (e.pairCand kind).partnerOf v < e.n ∧
      ((e.pairCand kind).isPaired v = false → (e.pairCand kind).partnerOf v = 0) := by
  cases kind with
  | emp => simp [Engine.pairCand]; omega
  | mir => simp [Engine.pairCand, PairSet.mirror_entry hv, hv]
  | flp => simp [Engine.pairCand, PairSet.flipped_entry hv]; omega
  | stg =>
    obtain ⟨hlt, -⟩ := hg v hv
    simp only [Engine.pairCand, e.staging.pairing_entry hv]
    split
    · next hw => simp [hw, hlt]
    · simp; omega

/-- A candidate that passes the symmetry check is symmetric (R123). -/
theorem Engine.pairCand_matching {e : Engine} {kind : PairKind} (hg : e.IStg)
    (h : (e.pairCand kind).firstAsymmetry e.n = none) : (e.pairCand kind).Matching e.n := by
  intro v hv
  obtain ⟨hlt, hfree⟩ := e.pairCand_partnerOf hg kind hv
  exact ⟨fun hp => ⟨hlt, PairSet.firstAsymmetry_eq_none.mp h v hv hp⟩, hfree⟩

/-- A candidate that passes both checks of RFL is a reflector (R195, R196). -/
theorem Engine.pairCand_total {e : Engine} {kind : PairKind} (hg : e.IStg)
    (h : (e.pairCand kind).firstAsymmetry e.n = none) (h' : (e.pairCand kind).firstNotReflecting e.n = none) :
    (e.pairCand kind).Total e.n := by
  intro v hv
  obtain ⟨hp, hne⟩ := PairSet.firstNotReflecting_eq_none.mp h' v hv
  obtain ⟨hlt, -, hinv⟩ := (e.pairCand_matching hg h v hv).1 hp
  exact ⟨hp, hlt, hne, hinv⟩

/-! ### The staging buffer -/

/-- Both tables of the staging buffer have `n` entries, and it satisfies I-STG (R28, R35). -/
def Staging.Ok (g : Staging) (n : Nat) : Prop :=
  (g.written.length = n ∧ g.data.length = n) ∧
  ∀ i, i < n → g.entry i < n ∧ (g.isWritten i = false → g.entry i = 0)

theorem Staging.clear_ok (n : Nat) : (Staging.clear n).Ok n :=
  ⟨by simp [Staging.clear], fun i hi => by simp; omega⟩

/-- STG of two indices keeps I-STG (R107). -/
theorem Staging.Ok.write {g : Staging} {n i d : Nat} (h : g.Ok n) (hi : i < n) (hd : d < n) : (g.write i d).Ok n := by
  obtain ⟨⟨hw, hl⟩, hg⟩ := h
  refine ⟨by simp [Staging.write, hw, hl], fun j hj => ?_⟩
  simp only [Staging.write, Staging.entry, Staging.isWritten]
  by_cases hji : j = i
  · subst hji
    simp [readEntry_set_self (hl.symm ▸ hi), readBit_set_self (hw.symm ▸ hi), hd]
  · rw [readEntry_set_ne _ _ hji, readBit_set_ne _ _ hji]
    exact hg j hj

/-! ### Positions -/

theorem Engine.setPos_iPos {e : Engine} {k p : Nat} (h : e.IPos) (hk : k < e.nrot) (hp : p < e.n) :
    (e.setPos k p).IPos := by
  intro j hj
  rw [Engine.setPos_nrot] at hj
  rw [Engine.setPos_pos e p hk, Engine.n_eq, Engine.setPos_inst, ← Engine.n_eq]
  split
  · exact hp
  · exact h j hj

theorem Engine.setPositions_iPos {e : Engine} {q : List Nat} (hl : q.length = e.nrot) (hq : ∀ p ∈ q, p < e.n) :
    (e.setPositions q).IPos := by
  intro j hj
  rw [Engine.setPositions_nrot e q hl] at hj
  rw [Engine.setPositions_pos e q hl hj]
  exact hq _ (readEntry_mem (hl.symm ▸ hj))

theorem Engine.zeroPositions_iPos {e : Engine} (hn : 1 ≤ e.n) : e.zeroPositions.IPos := by
  intro j hj
  rw [Engine.zeroPositions_nrot] at hj
  rw [Engine.zeroPositions_pos e hj]
  exact hn

theorem Engine.rawPosition_lt {e : Engine} (hn : 1 ≤ e.n) (p : Nat) : e.rawPosition p < e.n := Nat.mod_lt _ hn

theorem Engine.listedPositions_lt {e : Engine} (hn : 1 ≤ e.n) : ∀ p ∈ e.listedPositions, p < e.n := by
  intro p hp
  obtain ⟨k, -, rfl⟩ := List.mem_map.mp hp
  exact Engine.rawPosition_lt hn _

/-! ### The position list -/

/-- An 8-bit value written keeps the entries of the position list 8-bit values (R29, R180). -/
theorem readEntry_set_lt {l : List Nat} {m b k p : Nat} (h : ∀ j, j < m → readEntry l j < b) (hk : k < l.length)
    (hp : p < b) : ∀ j, j < m → readEntry (l.set k p) j < b := by
  intro j hj
  by_cases hjk : j = k
  · subst hjk
    rwa [readEntry_set_self hk]
  · rw [readEntry_set_ne _ _ hjk]
    exact h j hj

/-! ### A rotor -/

/-- A table of `n` entries that maps `0 .. n-1` into itself one to one (R104). -/
def IsPermTable (n : Nat) (c : List Nat) : Prop :=
  c.length = n ∧ (∀ i, i < n → readEntry c i < n) ∧
  ∀ i j, i < n → j < n → readEntry c i = readEntry c j → i = j

/-- A permutation table and its derived inverse satisfy I-PERM (R102, R194). -/
theorem IsPermTable.wired {n : Nat} {c : List Nat} (h : IsPermTable n c) (p : Nat) :
    Rotor.Wired n { fwd := c, inv := inverseTable n c, pos := p } := by
  obtain ⟨-, hlt, hinj⟩ := h
  intro i hi
  obtain ⟨hil, hfi⟩ := inverseTable_perm n c hlt hinj i hi
  exact ⟨hlt i hi, hil, (inverseTable_spec n c hlt hinj).2 i hi, hfi⟩

end Sys2Proof.Machine
end

section
/-! Which part of the engine a command writes, and what it writes there in a state that satisfies R35. -/

namespace Sys2Proof.Machine

theorem Engine.Inv.one_le_n {e : Engine} (h : e.Inv) : 1 ≤ e.n := by
  obtain ⟨⟨hn, _⟩, _⟩ := h
  exact hn

theorem Engine.Inv.iPos {e : Engine} (h : e.Inv) : e.IPos := fun _ => h.pos_lt

theorem Engine.Inv.iStg {e : Engine} (h : e.Inv) : e.IStg := by
  obtain ⟨_, _, _, _, _, _, _, hstg, _⟩ := h
  exact hstg

theorem Engine.Inv.staging_ok {e : Engine} (h : e.Inv) : e.staging.Ok e.n := by
  have ⟨_, ⟨_, _, _, hsize, _⟩, _⟩ := h
  exact ⟨hsize, h.iStg⟩

theorem Engine.Inv.plugboard_sized {e : Engine} (h : e.Inv) : e.plugboard.SizedFor e.n := by
  obtain ⟨_, ⟨_, hsize, _⟩, _⟩ := h
  exact hsize

theorem Engine.Inv.plugboard_matching {e : Engine} (h : e.Inv) : e.plugboard.Matching e.n := by
  obtain ⟨_, _, _, _, _, hpb, _⟩ := h
  exact hpb

/-- The command `i` writes at most one part of the engine, or is NEW. Each constructor names a part, says that `i` is
one of its writers (R21, R30, R50), and says what of R35 the new content satisfies. -/
inductive WritesOnly (i : Instr) (e : Engine) : Engine → Prop
  | reset (hw : i = .new) : WritesOnly i e (Engine.reset e.inst)
  | nothing : WritesOnly i e e
  | positions {e' : Engine} (hw : writesPositions i = true) (hsame : e.SameButPositions e')
      (hpos : e.Inv → e'.IPos) : WritesOnly i e e'
  | plugboard {p : PairSet} (hw : writesPlugboard i = true)
      (hp : e.Inv → p.SizedFor e.n ∧ p.Matching e.n) : WritesOnly i e { e with plugboard := p }
  | reflector {r : PairSet} (hw : writesReflector i = true)
      (hr : e.Inv → r.SizedFor e.n ∧ r.Total e.n) : WritesOnly i e { e with reflector := r }
  | staging {g : Staging} (hw : writesStaging i = true) (hg : e.Inv → g.Ok e.n) :
      WritesOnly i e { e with staging := g }
  | posList {l : List Nat} (hw : writesPosList i = true)
      (hl : i.WellFormed → e.Inv → l.length = e.rmax ∧ ∀ k, k < e.rmax → readEntry l k < 256) :
      WritesOnly i e { e with posList := l }
  | rotor {c : List Nat} (hw : writesNrot i = true)
      (hc : e.Inv → e.nrot < e.rmax ∧ IsPermTable e.n c) : WritesOnly i e (e.installRotor c)

/-- A vector of `NROT` positions below `N` is written by setting all positions. -/
theorem WritesOnly.setPositions {i : Instr} {e : Engine} {q : List Nat} (hw : writesPositions i = true)
    (hl : q.length = e.nrot) (hq : e.Inv → ∀ p ∈ q, p < e.n) : WritesOnly i e (e.setPositions q) :=
  .positions hw (e.setPositions_same q hl) fun h => Engine.setPositions_iPos hl (hq h)

/-- One position below `N` is written. -/
theorem WritesOnly.setPos {i : Instr} {e : Engine} {k p : Nat} (hw : writesPositions i = true) (hk : k < e.nrot)
    (hp : e.Inv → p < e.n) : WritesOnly i e (e.setPos k p) :=
  .positions hw (e.setPos_same k p) fun h => Engine.setPos_iPos h.iPos hk (hp h)

/-- All positions are zeroed (R182, R202). -/
theorem WritesOnly.zeroPositions {i : Instr} {e : Engine} (hw : writesPositions i = true) :
    WritesOnly i e e.zeroPositions :=
  .positions hw e.zeroPositions_same fun h => Engine.zeroPositions_iPos h.one_le_n

/-- The step of the stack is written (R175). -/
theorem WritesOnly.stepped {i : Instr} {e : Engine} (hw : writesPositions i = true) :
    WritesOnly i e (e.setPositions e.stepped) :=
  .setPositions hw e.stepped_length fun h => stackAdvance_lt h.one_le_n (Engine.positions_lt h.iPos)

/-- A command that succeeds writes only its part of the engine. -/
theorem Effect.writesOnly {i : Instr} {e e' : Engine} {d : Nat} (h : Effect i e e' d) : WritesOnly i e e' := by
  cases i with
  | inf =>
    obtain ⟨rfl, -⟩ := h
    exact .nothing
  | isp | plg | sen | sde | pos =>
    obtain ⟨-, rfl, -⟩ := h
    exact .nothing
  | pfw | pin | ren | rde | rfe =>
    obtain ⟨-, -, rfl, -⟩ := h
    exact .nothing
  | new =>
    obtain ⟨rfl, -⟩ := h
    exact .reset rfl
  | stc =>
    obtain ⟨rfl, -⟩ := h
    exact .staging rfl fun _ => Staging.clear_ok _
  | stg =>
    obtain ⟨hi, hd, rfl, -⟩ := h
    exact .staging rfl fun h => h.staging_ok.write hi hd
  | con =>
    obtain ⟨ha, hb, hua, hub, rfl, -⟩ := h
    exact .plugboard rfl fun h =>
      ⟨h.plugboard_sized.connect _ _, .connect h.plugboard_sized h.plugboard_matching ha hb hua hub⟩
  | dis =>
    obtain ⟨ha, rfl, -⟩ := h
    exact .plugboard rfl fun h =>
      ⟨h.plugboard_sized.disconnect _, .disconnect h.plugboard_sized h.plugboard_matching ha⟩
  | plb kind =>
    obtain ⟨hsym, rfl, -⟩ := h
    exact .plugboard rfl fun h => ⟨e.pairCand_sizes kind, Engine.pairCand_matching h.iStg hsym⟩
  | rflct kind =>
    obtain ⟨hsym, hrefl, rfl, -⟩ := h
    exact .reflector rfl fun h => ⟨e.pairCand_sizes kind, Engine.pairCand_total h.iStg hsym hrefl⟩
  | adv =>
    obtain ⟨hk, rfl, -⟩ := h
    exact .setPos rfl hk fun h => nextPosition_lt h.one_le_n
  | spr =>
    obtain ⟨hk, rfl, -⟩ := h
    exact .setPos rfl hk fun h => Engine.rawPosition_lt h.one_le_n _
  | stp =>
    obtain ⟨rfl, -⟩ := h
    exact .stepped rfl
  | enc | dec =>
    obtain ⟨-, -, rfl, -⟩ := h
    exact .stepped rfl
  | sps =>
    obtain ⟨-, rfl, -⟩ := h
    exact .setPositions rfl e.listedPositions_length fun h => Engine.listedPositions_lt h.one_le_n
  | rsp | rst =>
    obtain ⟨rfl, -⟩ := h
    exact .zeroPositions rfl
  | plw k p =>
    obtain ⟨hk, rfl, -⟩ := h
    refine .posList rfl fun hwf h => ?_
    obtain ⟨_, ⟨_, _, _, _, hlen⟩, _, _, _, _, _, _, hpl⟩ := h
    obtain ⟨-, hp⟩ := Bool.and_eq_true_iff.mp hwf
    exact ⟨by simpa using hlen, readEntry_set_lt hpl (hlen.symm ▸ hk) (operandOk_iff.mp hp)⟩
  | rot kind =>
    obtain ⟨hne, c, hc, rfl, -⟩ := h
    refine .rotor rfl fun h => ?_
    have ⟨_, _, hnrot, _⟩ := h
    exact ⟨lt_of_le_of_ne hnrot hne, Engine.permCand_spec (fun j hj => (h.iStg j hj).1) hc⟩

/-- A command, whether it succeeds or faults, writes only its part of the engine. -/
theorem exec_writesOnly {i : Instr} {s t : State} (h : exec i s = .next t) : WritesOnly i s.engine t.engine := by
  rcases exec_cases h with ⟨f, info, -, rfl⟩ | ⟨e', d, he, rfl⟩
  · exact .nothing
  · exact he.writesOnly

/-- No command changes `N` or `RMAX` (R31). -/
theorem WritesOnly.inst {i : Instr} {e e' : Engine} (h : WritesOnly i e e') : e'.inst = e.inst := by
  cases h with
  | positions _ hsame =>
    obtain ⟨hinst, -⟩ := hsame
    exact hinst
  | _ => rfl

/-- Settles O14, by what a step can do: an idle step, a reset event, a command, an illegal word. -/
theorem instanceConstantsNeverChange : Obligations.InstanceConstantsNeverChange := by
  intro s t h
  obtain ⟨-, ⟨-, rfl⟩ | ⟨rest, -, rfl⟩ | ⟨w, i, rest, -, -, he⟩ | ⟨w, r, rest, -, -, rfl⟩⟩ := step_cases h
  · rfl
  · rfl
  · exact (exec_writesOnly he).inst
  · rfl

/-- What the command is no writer of stays as it was, whatever part it writes. -/
theorem WritesOnly.frame {i : Instr} {e e' : Engine} (h : WritesOnly i e e') :
    (writesPositions i = false → ∀ k, k < e.nrot → e'.pos k = e.pos k) ∧
    (writesPlugboard i = false → e'.plugboard = e.plugboard) ∧
    (writesReflector i = false → e'.reflector = e.reflector) ∧
    (writesStaging i = false → e'.staging = e.staging) ∧
    (writesPosList i = false → e'.posList = e.posList) ∧
    (writesNrot i = false → e'.nrot = e.nrot) := by
  cases h with
  | reset hw => subst hw; exact ⟨nofun, nofun, nofun, nofun, nofun, nofun⟩
  | nothing => simp
  | positions hw hsame =>
    obtain ⟨-, hnrot, -, hpb, hrf, hstg, hpl⟩ := hsame
    simp [hw, hnrot, hpb, hrf, hstg, hpl]
  | plugboard hw => simp [hw, Engine.pos, Engine.slot, Engine.nrot]
  | reflector hw => simp [hw, Engine.pos, Engine.slot, Engine.nrot]
  | staging hw => simp [hw, Engine.pos, Engine.slot, Engine.nrot]
  | posList hw => simp [hw, Engine.pos, Engine.slot, Engine.nrot]
  | @rotor c hw =>
    simp only [hw, Engine.installRotor_plugboard, Engine.installRotor_reflector, Engine.installRotor_staging,
      Engine.installRotor_posList]
    simp +contextual [Engine.pos, Engine.installRotor_slot_lt e c]

/-- The response is put in front of the port's responses; the events still to come stay (R70). -/
theorem exec_pending {i : Instr} {s t : State} (h : exec i s = .next t) : t.port.pending = s.port.pending := by
  rcases exec_cases h with ⟨f, info, -, rfl⟩ | ⟨e', d, -, rfl⟩ <;> rfl

/-- Settles O16, by the part of the engine the command writes. -/
theorem onlyTheNamedCommandsWriteEachPart : Obligations.OnlyTheNamedCommandsWriteEachPart := by
  intro i s t h
  obtain ⟨hpos, hpb, hrf, hstg, hpl, hnrot⟩ := (exec_writesOnly h).frame
  exact ⟨hpos, hpb, hrf, hstg, hpl, hnrot, exec_pending h⟩

end Sys2Proof.Machine
end

section
/-! R35: the reset state satisfies the invariants, and every step keeps them. -/

namespace Sys2Proof.Machine

/-! ### Reset -/

/-- The reset values satisfy R35 for every legal choice of `N` and `RMAX` (R37). -/
theorem Engine.reset_inv {c : Instance} (hc : c.Valid) : (Engine.reset c).Inv := by
  have no_rotor : ∀ P : Nat → Prop, ∀ k, k < (Engine.reset c).nrot → P k :=
    fun _ _ hk => absurd hk (Nat.not_lt_zero _)
  have unpaired : (PairSet.empty c.n).Empty c.n := fun v _ => by simp
  refine ⟨hc, ⟨no_rotor _, ?_⟩, Nat.zero_le _, no_rotor _, no_rotor _, fun v _ => by simp, .inl unpaired,
    (Staging.clear_ok c.n).2, fun k _ => by simp [Engine.pl]⟩
  simp [PairSet.empty, Staging.clear]

/-- Settles O12: the reset values, of any legal parameters and of those of R7. -/
theorem resetStateIsSafe : Obligations.ResetStateIsSafe :=
  ⟨fun _ => Engine.reset_inv, Engine.reset_inv (by decide)⟩

/-- Settles O11: each register of the reset state is read by its law. -/
theorem resetLeavesTheSpecValues : Obligations.ResetLeavesTheSpecValues := by
  intro c
  refine ⟨rfl, ?_, rfl, rfl, rfl, fun v _ => by simp, fun k _ => by simp [Engine.pl]⟩
  rintro s rfl
  rfl

/-! ### The invariants after a write to one part -/

/-- An engine that differs in nothing but positions is the engine with other rotors. -/
theorem Engine.SameButPositions.eq_with_rotors {e e' : Engine} (h : e.SameButPositions e') :
    e' = { e with rotors := e'.rotors } := by
  obtain ⟨hinst, -, -, hpb, hrf, hstg, hpl⟩ := h
  rw [← hinst, ← hpb, ← hrf, ← hstg, ← hpl]

/-- Legal positions are all that can break R35 when nothing but positions differs. -/
theorem Engine.Inv.of_sameButPositions {e e' : Engine} (h : e.Inv) (hsame : e.SameButPositions e') (hpos : e'.IPos) :
    e'.Inv := by
  obtain ⟨hv, ⟨hrot, hsizes⟩, hnrot, -, hperm, hpb, hrf, hstg, hpl⟩ := h
  obtain ⟨rs, rfl⟩ : ∃ rs, e' = { e with rotors := rs } := ⟨_, hsame.eq_with_rotors⟩
  obtain ⟨-, hn, hwiring, -⟩ := hsame
  refine ⟨hv, ⟨fun k hk => ?_, hsizes⟩, hn.trans_le hnrot, hpos, fun k hk i hi => ?_, hpb, hrf, hstg, hpl⟩
  · obtain ⟨hfwd, hinv⟩ := hwiring k
    rw [hfwd, hinv]
    exact hrot k (hn ▸ hk)
  · obtain ⟨hfwd, hinv⟩ := hwiring k
    rw [Engine.fwd, Engine.inv, Engine.inv, Engine.fwd, hfwd, hinv]
    exact hperm k (hn ▸ hk) i hi

/-- A permutation table installed on top of a stack with a free slot keeps R35 (R194). -/
theorem Engine.Inv.installRotor {e : Engine} {c : List Nat} (h : e.Inv) (hfree : e.nrot < e.rmax)
    (hc : IsPermTable e.n c) : (e.installRotor c).Inv := by
  obtain ⟨hv, ⟨hrot, hsizes⟩, -, hpos, hperm, hpb, hrf, hstg, hpl⟩ := h
  have slots : ∀ P : Rotor → Prop, (∀ k, k < e.nrot → P (e.slot k)) →
      P { fwd := c, inv := inverseTable e.n c, pos := 0 } →
      ∀ k, k < (e.installRotor c).nrot → P ((e.installRotor c).slot k) := by
    intro P hold hnew k hk
    rw [Engine.installRotor_nrot] at hk
    rcases Nat.lt_or_eq_of_le (Nat.le_of_lt_succ hk) with hk | rfl
    · exact e.installRotor_slot_lt c hk ▸ hold k hk
    · exact e.installRotor_slot_top c ▸ hnew
  have hwired := hc.wired 0
  obtain ⟨hlen, hlt, hinj⟩ := hc
  refine ⟨hv, ⟨?_, hsizes⟩, ?_, ?_, ?_, hpb, hrf, hstg, hpl⟩
  · exact slots (fun r => r.fwd.length = e.n ∧ r.inv.length = e.n) hrot
      ⟨hlen, (inverseTable_spec e.n c hlt hinj).1⟩
  · rw [Engine.INrot, Engine.installRotor_nrot]
    exact hfree
  · exact slots (·.pos < e.n) hpos hv.1
  · exact slots (·.Wired e.n) hperm hwired

/-- What a command writes keeps R35, when its operands are 8-bit values. -/
theorem WritesOnly.inv {i : Instr} {e e' : Engine} (h : WritesOnly i e e') (hi : i.WellFormed) (he : e.Inv) :
    e'.Inv := by
  have ⟨hv, ⟨hrot, hspb, hsrf, hsstg, hspl⟩, hnrot, hpos, hperm, hpb, hrf, hstg, hpl⟩ := he
  cases h with
  | reset => exact Engine.reset_inv hv
  | nothing => exact he
  | positions _ hsame hp => exact he.of_sameButPositions hsame (hp he)
  | plugboard _ hp =>
    obtain ⟨hs, hm⟩ := hp he
    exact ⟨hv, ⟨hrot, hs, hsrf, hsstg, hspl⟩, hnrot, hpos, hperm, hm, hrf, hstg, hpl⟩
  | reflector _ hr =>
    obtain ⟨hs, ht⟩ := hr he
    exact ⟨hv, ⟨hrot, hspb, hs, hsstg, hspl⟩, hnrot, hpos, hperm, hpb, .inr ht, hstg, hpl⟩
  | staging _ hg =>
    obtain ⟨hs, hm⟩ := hg he
    exact ⟨hv, ⟨hrot, hspb, hsrf, hs, hspl⟩, hnrot, hpos, hperm, hpb, hrf, hm, hpl⟩
  | posList _ hl =>
    obtain ⟨hs, hm⟩ := hl hi he
    exact ⟨hv, ⟨hrot, hspb, hsrf, hsstg, hs⟩, hnrot, hpos, hperm, hpb, hrf, hstg, hm⟩
  | rotor _ hc =>
    obtain ⟨hfree, hp⟩ := hc he
    exact he.installRotor hfree hp

/-- Settles O13: only a command writes, and it writes content that satisfies R35; the operands of a decoded word are
8-bit values, which the position list needs. -/
theorem everyStepKeepsTheInvariants : Obligations.EveryStepKeepsTheInvariants := by
  intro s t hs h
  obtain ⟨hv, ⟨-, rfl⟩ | ⟨rest, -, rfl⟩ | ⟨w, i, rest, -, hd, he⟩ | ⟨w, r, rest, -, -, rfl⟩⟩ := step_cases h
  · exact hs
  · exact Engine.reset_inv hv
  · exact (exec_writesOnly he).inv (decode_wellFormed hd) hs
  · exact hs

end Sys2Proof.Machine
end

section
/-! A command reads nothing of the port (R34, R235). -/

namespace Sys2Proof.Machine

/-- At the ports `p` and `q` the outcomes `o` and `o'` leave the same engine and give the same response. -/
def AnswersAlike (p q : Port) (o o' : Host.Outcome State Fault Refusal) : Prop :=
  ∃ e r, o = .next ((State.mk e p).reply r) ∧ o' = .next ((State.mk e q).reply r)

section
variable {e : Engine} {p q : Port} {o o' : Host.Outcome State Fault Refusal}

theorem AnswersAlike.succeed (e' : Engine) (d : Nat) :
    AnswersAlike p q ((State.mk e p).succeed e' d) ((State.mk e q).succeed e' d) := ⟨e', _, rfl, rfl⟩

theorem AnswersAlike.raise (f : FaultKind) (info : Nat) :
    AnswersAlike p q ((State.mk e p).raise f info) ((State.mk e q).raise f info) := ⟨e, _, rfl, rfl⟩

/-- A check of the engine decides alike at both ports. -/
theorem AnswersAlike.ite {c : Prop} [Decidable c] {u u' : Host.Outcome State Fault Refusal}
    (h : AnswersAlike p q o o') (hu : AnswersAlike p q u u') :
    AnswersAlike p q (if c then o else u) (if c then o' else u') := by
  split
  · exact h
  · exact hu

theorem AnswersAlike.needSlot {k : Nat} (h : AnswersAlike p q o o') :
    AnswersAlike p q ((State.mk e p).needSlot k o) ((State.mk e q).needSlot k o') := .ite (.raise _ _) h

theorem AnswersAlike.needListSlot {k : Nat} (h : AnswersAlike p q o o') :
    AnswersAlike p q ((State.mk e p).needListSlot k o) ((State.mk e q).needListSlot k o') := .ite (.raise _ _) h

theorem AnswersAlike.needIndex {v : Nat} (h : AnswersAlike p q o o') :
    AnswersAlike p q ((State.mk e p).needIndex v o) ((State.mk e q).needIndex v o') := .ite (.raise _ _) h

theorem AnswersAlike.needLength {len : Nat} (h : AnswersAlike p q o o') :
    AnswersAlike p q ((State.mk e p).needLength len o) ((State.mk e q).needLength len o') := .ite (.raise _ _) h

theorem AnswersAlike.needUnpaired {v : Nat} (h : AnswersAlike p q o o') :
    AnswersAlike p q ((State.mk e p).needUnpaired v o) ((State.mk e q).needUnpaired v o') := .ite (.raise _ _) h

theorem AnswersAlike.needReflected {v : Nat} (h : AnswersAlike p q o o') :
    AnswersAlike p q ((State.mk e p).needReflected v o) ((State.mk e q).needReflected v o') := .ite h (.raise _ _)

end

/-- Every command answers alike at any two ports. -/
theorem exec_answersAlike (i : Instr) (e : Engine) (p q : Port) :
    AnswersAlike p q (exec i ⟨e, p⟩) (exec i ⟨e, q⟩) := by
  cases i with
  | new | inf | stc | stp | rsp | rst => exact .succeed _ _
  | dis | isp | plg | sen | sde => exact .needIndex (.succeed _ _)
  | stg => exact .needIndex (.needIndex (.succeed _ _))
  | adv | spr | pos => exact .needSlot (.succeed _ _)
  | pfw | pin | ren | rde => exact .needSlot (.needIndex (.succeed _ _))
  | con => exact .needIndex (.needIndex (.needUnpaired (.needUnpaired (.succeed _ _))))
  | rfe | enc | dec => exact .needIndex (.needReflected (.succeed _ _))
  | plw => exact .needListSlot (.succeed _ _)
  | sps => exact .needLength (.succeed _ _)
  | plb kind =>
    simp only [exec, execPlb]
    cases (e.pairCand kind).firstAsymmetry e.n with
    | none => exact .succeed _ _
    | some v => exact .raise _ _
  | rot kind =>
    refine .ite (.raise _ _) ?_
    dsimp only
    cases e.permCand kind with
    | error i => exact .raise _ _
    | ok c => exact .succeed _ _
  | rflct kind =>
    simp only [exec, execRfl]
    cases (e.pairCand kind).firstAsymmetry e.n with
    | some v => exact .raise _ _
    | none =>
      dsimp only
      cases (e.pairCand kind).firstNotReflecting e.n with
      | none => exact .succeed _ _
      | some v => exact .raise _ _

/-- Settles O19: the same engine at two ports. -/
theorem commandsDependOnTheEngineOnly : Obligations.CommandsDependOnTheEngineOnly := by
  rintro i ⟨e, p⟩ ⟨_, q⟩ t rfl h
  obtain ⟨e', r, hs, hu⟩ := exec_answersAlike i e p q
  cases h.symm.trans hs
  exact ⟨_, r, hu, rfl, rfl, rfl⟩

end Sys2Proof.Machine
end

section
/-! I-RF needs an even `N` (R27, R255). -/

namespace Sys2Proof.Machine

/-- A total pairing without fixed points pairs off `0 .. n-1`: modulo 2 each index cancels with its partner. -/
theorem PairSet.Total.even {s : PairSet} {n : Nat} (h : s.Total n) : Even n := by
  rw [← ZMod.natCast_eq_zero_iff_even]
  have hsum : ∑ v ∈ Finset.range n, (1 : ZMod 2) = 0 := by
    refine Finset.sum_involution (fun v _ => s.partnerOf v) (fun _ _ => by decide) ?_ ?_ ?_
    · intro v hv _
      obtain ⟨-, -, hne, -⟩ := h v (Finset.mem_range.mp hv)
      exact hne
    · intro v hv
      obtain ⟨-, hlt, -, -⟩ := h v (Finset.mem_range.mp hv)
      exact Finset.mem_range.mpr hlt
    · intro v hv
      obtain ⟨-, -, -, hinv⟩ := h v (Finset.mem_range.mp hv)
      exact hinv
  simpa using hsum

/-- Settles O51: I-RF leaves a reflector that is not empty only the total case. -/
theorem aReflectorNeedsEvenN : Obligations.AReflectorNeedsEvenN := by
  intro s hs hne
  obtain ⟨_, _, _, _, _, _, hrf, _⟩ := hs
  exact Nat.even_iff.mp (hrf.resolve_left hne).even

end Sys2Proof.Machine
end

section
/-! Decoding and encoding undo each other (R71, R77, R79, R81). -/

namespace Sys2Proof

/-- Settles O1, by the round trip of each of the 28 commands. -/
theorem decodeOfEncodeIsTheInstruction : Obligations.DecodeOfEncodeIsTheInstruction := by
  intro i
  cases i with
  | new => exact Laws.EncodingRoundTrip.new
  | inf sel => exact Laws.EncodingRoundTrip.inf sel
  | stc => exact Laws.EncodingRoundTrip.stc
  | stg i d => exact Laws.EncodingRoundTrip.stg i d
  | pfw k i => exact Laws.EncodingRoundTrip.pfw k i
  | pin k i => exact Laws.EncodingRoundTrip.pin k i
  | con a b => exact Laws.EncodingRoundTrip.con a b
  | dis a => exact Laws.EncodingRoundTrip.dis a
  | isp t v => exact Laws.EncodingRoundTrip.isp t v
  | plg v => exact Laws.EncodingRoundTrip.plg v
  | rfe v => exact Laws.EncodingRoundTrip.rfe v
  | plb kind => exact Laws.EncodingRoundTrip.plb kind
  | ren k v => exact Laws.EncodingRoundTrip.ren k v
  | rde k v => exact Laws.EncodingRoundTrip.rde k v
  | adv k => exact Laws.EncodingRoundTrip.adv k
  | spr k p => exact Laws.EncodingRoundTrip.spr k p
  | sen v => exact Laws.EncodingRoundTrip.sen v
  | sde v => exact Laws.EncodingRoundTrip.sde v
  | stp => exact Laws.EncodingRoundTrip.stp
  | pos k => exact Laws.EncodingRoundTrip.pos k
  | plw k p => exact Laws.EncodingRoundTrip.plw k p
  | sps len => exact Laws.EncodingRoundTrip.sps len
  | rsp => exact Laws.EncodingRoundTrip.rsp
  | rot kind => exact Laws.EncodingRoundTrip.rot kind
  | rflct kind => exact Laws.EncodingRoundTrip.rflct kind
  | enc v => exact Laws.EncodingRoundTrip.enc v
  | dec v => exact Laws.EncodingRoundTrip.dec v
  | rst => exact Laws.EncodingRoundTrip.rst

/-! ### What a format accepts is encoded to the word it was read from -/

variable {w : Word} {i j : Instr} {o : Nat}

/-- A word is packed from values that its fields are known to hold. -/
theorem packWord_eq_of_fields {a b c : Nat} (ho : fieldOpc w = o) (ha : fieldA w = a) (hb : fieldB w = b)
    (hc : fieldC w = c) : packWord o a b c = w := by
  subst ho ha hb hc
  exact packWord_fields w

theorem formatZ_encode (ho : fieldOpc w = o) (h : formatZ w i = .ok j) (he : encode i = packWord o 0 0 0) :
    encode j = w := by
  obtain ⟨⟨ha, hb, hc⟩, rfl⟩ := formatZ_eq_ok.mp h
  exact he.trans (packWord_eq_of_fields ho ha hb hc)

theorem formatA_encode {f : Nat → Instr} (ho : fieldOpc w = o) (h : formatA w f = .ok j)
    (he : ∀ a, encode (f a) = packWord o a 0 0) : encode j = w := by
  obtain ⟨⟨hb, hc⟩, rfl⟩ := formatA_eq_ok.mp h
  exact (he _).trans (packWord_eq_of_fields ho rfl hb hc)

theorem formatBC_encode {f : Nat → Nat → Instr} (ho : fieldOpc w = o) (h : formatBC w f = .ok j)
    (he : ∀ b c, encode (f b c) = packWord o 0 b c) : encode j = w := by
  obtain ⟨ha, rfl⟩ := formatBC_eq_ok.mp h
  exact (he _ _).trans (packWord_eq_of_fields ho ha rfl rfl)

theorem formatC_encode {f : Nat → Instr} (ho : fieldOpc w = o) (h : formatC w (fun c => some (f c)) = .ok j)
    (he : ∀ c, encode (f c) = packWord o 0 0 c) : encode j = w := by
  obtain ⟨⟨ha, hb⟩, hj⟩ := formatC_eq_ok.mp h
  cases hj
  exact (he _).trans (packWord_eq_of_fields ho ha hb rfl)

/-- Format C with a named value of R79, whose number is `num`. -/
theorem formatC_named_encode {α : Type} {d : Nat → Option α} {num : α → Nat} {f : α → Instr}
    (hd : ∀ {v x}, d v = some x ↔ v = num x) (ho : fieldOpc w = o)
    (h : formatC w (fun c => (d c).map f) = .ok j) (he : ∀ x, encode (f x) = packWord o 0 0 (num x)) :
    encode j = w := by
  obtain ⟨⟨ha, hb⟩, hj⟩ := formatC_eq_ok.mp h
  obtain ⟨x, hx, rfl⟩ := Option.map_eq_some_iff.mp hj
  exact (he x).trans (packWord_eq_of_fields ho ha hb (hd.mp hx))

theorem formatAC_encode {f : Nat → Nat → Instr} (ho : fieldOpc w = o)
    (h : formatAC w (fun a c => some (f a c)) = .ok j) (he : ∀ a c, encode (f a c) = packWord o a 0 c) :
    encode j = w := by
  obtain ⟨hb, hj⟩ := formatAC_eq_ok.mp h
  cases hj
  exact (he _ _).trans (packWord_eq_of_fields ho rfl hb rfl)

/-- Format AC with a named value of R79 in `A`, whose number is `num`. -/
theorem formatAC_named_encode {α : Type} {d : Nat → Option α} {num : α → Nat} {f : α → Nat → Instr}
    (hd : ∀ {v x}, d v = some x ↔ v = num x) (ho : fieldOpc w = o)
    (h : formatAC w (fun a c => (d a).map fun x => f x c) = .ok j)
    (he : ∀ x c, encode (f x c) = packWord o (num x) 0 c) : encode j = w := by
  obtain ⟨hb, hj⟩ := formatAC_eq_ok.mp h
  obtain ⟨x, hx, rfl⟩ := Option.map_eq_some_iff.mp hj
  exact (he x _).trans (packWord_eq_of_fields ho (hd.mp hx) hb rfl)

/-- A word that decodes is the word of its command (R81); the cases are the rows of R77 in order. -/
theorem encode_of_decode (h : decode w = .ok i) : encode i = w := by
  unfold decode at h
  split at h
  next ho => exact formatZ_encode ho h rfl
  next ho => exact formatC_named_encode decodeInfSel_eq_some ho h fun _ => rfl
  next ho => exact formatZ_encode ho h rfl
  next ho => exact formatBC_encode ho h fun _ _ => rfl
  next ho => exact formatAC_encode ho h fun _ _ => rfl
  next ho => exact formatAC_encode ho h fun _ _ => rfl
  next ho => exact formatBC_encode ho h fun _ _ => rfl
  next ho => exact formatC_encode ho h fun _ => rfl
  next ho => exact formatAC_named_encode decodeTarget_eq_some ho h fun _ _ => rfl
  next ho => exact formatC_encode ho h fun _ => rfl
  next ho => exact formatC_encode ho h fun _ => rfl
  next ho => exact formatC_named_encode decodePairKind_eq_some ho h fun _ => rfl
  next ho => exact formatAC_encode ho h fun _ _ => rfl
  next ho => exact formatAC_encode ho h fun _ _ => rfl
  next ho => exact formatA_encode ho h fun _ => rfl
  next ho => exact formatAC_encode ho h fun _ _ => rfl
  next ho => exact formatC_encode ho h fun _ => rfl
  next ho => exact formatC_encode ho h fun _ => rfl
  next ho => exact formatZ_encode ho h rfl
  next ho => exact formatA_encode ho h fun _ => rfl
  next ho => exact formatAC_encode ho h fun _ _ => rfl
  next ho => exact formatC_encode ho h fun _ => rfl
  next ho => exact formatZ_encode ho h rfl
  next ho => exact formatC_named_encode decodePermKind_eq_some ho h fun _ => rfl
  next ho => exact formatC_named_encode decodePairKind_eq_some ho h fun _ => rfl
  next ho => exact formatC_encode ho h fun _ => rfl
  next ho => exact formatC_encode ho h fun _ => rfl
  next ho => exact formatZ_encode ho h rfl
  next => cases h

/-- Settles O2: the decoded command is well formed, and its fields are those of the word. -/
theorem encodeOfDecodeIsTheWord : Obligations.EncodeOfDecodeIsTheWord :=
  fun _ _ h => ⟨decode_wellFormed h, encode_of_decode h⟩

/-- Settles O4, by evaluating the decoder on each group of words and on the two illegal ones. -/
theorem specWordsDecodeToTheirCommands : Obligations.SpecWordsDecodeToTheirCommands := by
  refine ⟨?_, ?_, ?_, ?_, ?_, ?_, ?_⟩ <;> decide

end Sys2Proof
end

section
/-! The decoder accepts exactly the words that a row of the opcode table accepts (R71, R77 to R81). -/

namespace Sys2Proof

/-! ### Masks and fields -/

variable {w : Word}

/-- A word's number, from its fields (R71). -/
theorem toNat_eq_fields (w : Word) :
    w.toNat = fieldOpc w * 2 ^ 24 + fieldA w * 2 ^ 16 + fieldB w * 2 ^ 8 + fieldC w := by
  have := w.isLt
  simp only [fieldOpc, fieldA, fieldB, fieldC, BitVec.extractLsb'_toNat, Nat.shiftRight_eq_div_pow]
  omega

/-- The opcode is the number in the top 8 bits (R71). -/
theorem fieldOpc_eq_div (w : Word) : fieldOpc w = w.toNat / 2 ^ 24 := by
  have := toNat_eq_fields w
  have := fieldA_lt w
  have := fieldB_lt w
  have := fieldC_lt w
  omega

theorem fieldOpc_and (w m : Word) : fieldOpc (w &&& m) = fieldOpc w &&& fieldOpc m := by
  simp only [fieldOpc, BitVec.extractLsb'_and, BitVec.toNat_and]

theorem packWord_and (o a b c p d e f : Nat) :
    packWord o a b c &&& packWord p d e f = packWord (o &&& p) (a &&& d) (b &&& e) (c &&& f) := by
  simp only [packWord, BitVec.ofNat_and, ← BitVec.and_append]

/-- A mask of four fields masks each field. -/
theorem and_packWord (w : Word) (p d e f : Nat) :
    w &&& packWord p d e f = packWord (fieldOpc w &&& p) (fieldA w &&& d) (fieldB w &&& e) (fieldC w &&& f) := by
  rw [← packWord_and, packWord_fields]

theorem and_255_of_lt {v : Nat} (hv : v < 256) : v &&& 255 = v :=
  (Nat.and_two_pow_sub_one_eq_mod v 8).trans (Nat.mod_eq_of_lt hv)

@[simp] theorem fieldOpc_and_255 (w : Word) : fieldOpc w &&& 255 = fieldOpc w := and_255_of_lt (fieldOpc_lt w)
@[simp] theorem fieldA_and_255 (w : Word) : fieldA w &&& 255 = fieldA w := and_255_of_lt (fieldA_lt w)
@[simp] theorem fieldB_and_255 (w : Word) : fieldB w &&& 255 = fieldB w := and_255_of_lt (fieldB_lt w)
@[simp] theorem fieldC_and_255 (w : Word) : fieldC w &&& 255 = fieldC w := and_255_of_lt (fieldC_lt w)

/-- A packed word holds nothing but its opcode exactly when its operands are zero. -/
theorem packWord_eq_opcode_iff {o a b c : Nat} (ha : a < 256) (hb : b < 256) (hc : c < 256) :
    packWord o a b c = packWord o 0 0 0 ↔ a = 0 ∧ b = 0 ∧ c = 0 := by
  constructor
  · intro h
    have hA := congrArg fieldA h
    have hB := congrArg fieldB h
    have hC := congrArg fieldC h
    simp only [fieldA_packWord, fieldB_packWord, fieldC_packWord] at hA hB hC
    omega
  · rintro ⟨rfl, rfl, rfl⟩
    rfl

/-- Only the opcode is left of a word exactly when every masked operand field is zero. -/
theorem and_mask_eq_opcode_iff {a b c : Nat} :
    w &&& packWord 255 a b c = packWord (fieldOpc w) 0 0 0 ↔
      fieldA w &&& a = 0 ∧ fieldB w &&& b = 0 ∧ fieldC w &&& c = 0 := by
  rw [and_packWord, fieldOpc_and_255]
  exact packWord_eq_opcode_iff (Nat.and_le_left.trans_lt (fieldA_lt w)) (Nat.and_le_left.trans_lt (fieldB_lt w))
    (Nat.and_le_left.trans_lt (fieldC_lt w))

/-- The number of a packed word. -/
theorem toNat_packWord {o a b c : Nat} (ho : o < 256) (ha : a < 256) (hb : b < 256) (hc : c < 256) :
    (packWord o a b c).toNat = o * 2 ^ 24 + a * 2 ^ 16 + b * 2 ^ 8 + c := by
  obtain ⟨hO, hA, hB, hC⟩ := fields_packWord ho ha hb hc
  rw [toNat_eq_fields, hO, hA, hB, hC]

/-- The named value in field `C` is at most `m` (R79). -/
theorem and_maskC_le_iff {m : Nat} (hm : m < 256) : w &&& packWord 0 0 0 255 ≤ packWord 0 0 0 m ↔ fieldC w ≤ m := by
  rw [and_packWord, BitVec.le_def, fieldC_and_255]
  simp only [Nat.and_zero]
  rw [toNat_packWord (by decide) (by decide) (by decide) (fieldC_lt w),
    toNat_packWord (by decide) (by decide) (by decide) hm]
  omega

/-- The named value in field `A` is at most `m` (R79). -/
theorem and_maskA_le_iff {m : Nat} (hm : m < 256) : w &&& packWord 0 255 0 0 ≤ packWord 0 m 0 0 ↔ fieldA w ≤ m := by
  rw [and_packWord, BitVec.le_def, fieldA_and_255]
  simp only [Nat.and_zero]
  rw [toNat_packWord (by decide) (fieldA_lt w) (by decide) (by decide),
    toNat_packWord (by decide) hm (by decide) (by decide)]
  omega

/-! ### The rows of one opcode -/

namespace Machine

/-- The word belongs to the row, and the field of R79, if the row has one, holds a named value. -/
def OpcodeRow.Accepts (row : OpcodeRow) (w : Word) : Prop :=
  w &&& row.mask = row.pattern ∧ w &&& row.valueMask ≤ row.limit

/-- The rows of the opcode table with the opcode `o`. -/
def rowsAt (o : Nat) : List OpcodeRow := opcodeRows.filter fun row => fieldOpc row.pattern = o

/-- Every mask covers the opcode, so only a row of the word's own opcode can accept it. -/
theorem legalWord_iff_rowsAt : LegalWord w ↔ ∃ row ∈ rowsAt (fieldOpc w), row.Accepts w := by
  have hmask : ∀ row ∈ opcodeRows, fieldOpc row.mask = 255 := by decide
  constructor
  · rintro ⟨row, hrow, hw, hv⟩
    have ho : fieldOpc row.pattern = fieldOpc w := by
      rw [← hw, fieldOpc_and, hmask row hrow, fieldOpc_and_255]
    exact ⟨row, List.mem_filter.mpr ⟨hrow, decide_eq_true ho⟩, hw, hv⟩
  · rintro ⟨row, hrow, hw⟩
    exact ⟨row, List.mem_of_mem_filter hrow, hw⟩

/-- Where the opcode has one row, that row decides. -/
theorem legalWord_iff_accepts {row : OpcodeRow} (h : rowsAt (fieldOpc w) = [row]) : LegalWord w ↔ row.Accepts w := by
  simp [legalWord_iff_rowsAt, h]

/-- The opcodes of R77. -/
def opcodes : List Nat :=
  [0x01, 0x02, 0x10, 0x11, 0x12, 0x13, 0x20, 0x21, 0x22, 0x23, 0x24, 0x25, 0x30, 0x31, 0x32, 0x33,
    0x40, 0x41, 0x42, 0x43, 0x44, 0x45, 0x46, 0x50, 0x51, 0x52, 0x53, 0x54]

theorem opcodeRows_opcodes : (opcodeRows.map fun row => fieldOpc row.pattern) = opcodes := rfl

theorem LegalWord.fieldOpc_mem (h : LegalWord w) : fieldOpc w ∈ opcodes := by
  obtain ⟨row, hrow, -⟩ := legalWord_iff_rowsAt.mp h
  obtain ⟨hmem, ho⟩ := List.mem_filter.mp hrow
  rw [← opcodeRows_opcodes, ← of_decide_eq_true ho]
  exact List.mem_map_of_mem hmem

/-- The row of the opcode `o` without a named value, whose mask covers the opcode and `a`, `b`, `c` of the fields. -/
def OpcodeRow.plain (o a b c : Nat) : OpcodeRow :=
  { pattern := packWord o 0 0 0, mask := packWord 255 a b c, valueMask := 0, limit := 0 }

/-- The row of the opcode `o` in format C with a named value of at most `m` in `C` (R79). -/
def OpcodeRow.namedC (o m : Nat) : OpcodeRow :=
  { pattern := packWord o 0 0 0, mask := packWord 255 255 255 0
    valueMask := packWord 0 0 0 255, limit := packWord 0 0 0 m }

/-- The row of the opcode `o` in format AC with a named value of at most `m` in `A` (R79). -/
def OpcodeRow.namedA (o m : Nat) : OpcodeRow :=
  { pattern := packWord o 0 0 0, mask := packWord 255 0 255 0
    valueMask := packWord 0 255 0 0, limit := packWord 0 m 0 0 }

theorem OpcodeRow.plain_accepts {a b c : Nat} :
    (OpcodeRow.plain (fieldOpc w) a b c).Accepts w ↔ fieldA w &&& a = 0 ∧ fieldB w &&& b = 0 ∧ fieldC w &&& c = 0 :=
  (and_iff_left (by simp [plain])).trans and_mask_eq_opcode_iff

theorem OpcodeRow.namedC_accepts {m : Nat} (hm : m < 256) :
    (OpcodeRow.namedC (fieldOpc w) m).Accepts w ↔ (fieldA w = 0 ∧ fieldB w = 0) ∧ fieldC w ≤ m :=
  and_congr (and_mask_eq_opcode_iff.trans (by simp)) (and_maskC_le_iff hm)

theorem OpcodeRow.namedA_accepts {m : Nat} (hm : m < 256) :
    (OpcodeRow.namedA (fieldOpc w) m).Accepts w ↔ fieldB w = 0 ∧ fieldA w ≤ m :=
  and_congr (and_mask_eq_opcode_iff.trans (by simp)) (and_maskA_le_iff hm)

end Machine

/-! ### Each format accepts what its row accepts -/

section
open Machine
variable {o : Nat} {i : Instr}

theorem formatZ_iff_legalWord (ho : fieldOpc w = o) (h : rowsAt o = [.plain o 255 255 255]) :
    (∃ j, formatZ w i = .ok j) ↔ LegalWord w := by
  subst ho
  simp [legalWord_iff_accepts h, OpcodeRow.plain_accepts, formatZ_eq_ok]

theorem formatA_iff_legalWord {f : Nat → Instr} (ho : fieldOpc w = o) (h : rowsAt o = [.plain o 0 255 255]) :
    (∃ j, formatA w f = .ok j) ↔ LegalWord w := by
  subst ho
  simp [legalWord_iff_accepts h, OpcodeRow.plain_accepts, formatA_eq_ok]

theorem formatBC_iff_legalWord {f : Nat → Nat → Instr} (ho : fieldOpc w = o) (h : rowsAt o = [.plain o 255 0 0]) :
    (∃ j, formatBC w f = .ok j) ↔ LegalWord w := by
  subst ho
  simp [legalWord_iff_accepts h, OpcodeRow.plain_accepts, formatBC_eq_ok]

theorem formatC_iff_legalWord {f : Nat → Instr} (ho : fieldOpc w = o) (h : rowsAt o = [.plain o 255 255 0]) :
    (∃ j, formatC w (fun c => some (f c)) = .ok j) ↔ LegalWord w := by
  subst ho
  simp [legalWord_iff_accepts h, OpcodeRow.plain_accepts, formatC_eq_ok]

theorem formatAC_iff_legalWord {f : Nat → Nat → Instr} (ho : fieldOpc w = o) (h : rowsAt o = [.plain o 0 255 0]) :
    (∃ j, formatAC w (fun a c => some (f a c)) = .ok j) ↔ LegalWord w := by
  subst ho
  simp [legalWord_iff_accepts h, OpcodeRow.plain_accepts, formatAC_eq_ok]

/-- Format C with a named value of R79, the largest of which is `m`. -/
theorem formatC_named_iff_legalWord {α : Type} {d : Nat → Option α} {f : α → Instr} {m : Nat} (hm : m < 256)
    (hd : ∀ v, (∃ x, d v = some x) ↔ v ≤ m) (ho : fieldOpc w = o) (h : rowsAt o = [.namedC o m]) :
    (∃ j, formatC w (fun c => (d c).map f) = .ok j) ↔ LegalWord w := by
  subst ho
  simp [legalWord_iff_accepts h, OpcodeRow.namedC_accepts hm, formatC_eq_ok, ← hd]

/-- Format AC with a named value of R79 in `A`, the largest of which is `m`. -/
theorem formatAC_named_iff_legalWord {α : Type} {d : Nat → Option α} {f : α → Nat → Instr} {m : Nat} (hm : m < 256)
    (hd : ∀ v, (∃ x, d v = some x) ↔ v ≤ m) (ho : fieldOpc w = o) (h : rowsAt o = [.namedA o m]) :
    (∃ j, formatAC w (fun a c => (d a).map fun x => f x c) = .ok j) ↔ LegalWord w := by
  subst ho
  simp [legalWord_iff_accepts h, OpcodeRow.namedA_accepts hm, formatAC_eq_ok, ← hd]

/-! ### The named values of R79 are the numbers up to the largest -/

theorem decodeInfSel_isSome_iff (v : Nat) : (∃ x, decodeInfSel v = some x) ↔ v ≤ 2 := by
  unfold decodeInfSel
  split
  case h_4 => grind
  all_goals simp

theorem decodeTarget_isSome_iff (v : Nat) : (∃ x, decodeTarget v = some x) ↔ v ≤ 1 := by
  unfold decodeTarget
  split
  case h_3 => grind
  all_goals simp

theorem decodePermKind_isSome_iff (v : Nat) : (∃ x, decodePermKind v = some x) ↔ v ≤ 2 := by
  unfold decodePermKind
  split
  case h_4 => grind
  all_goals simp

theorem decodePairKind_isSome_iff (v : Nat) : (∃ x, decodePairKind v = some x) ↔ v ≤ 3 := by
  unfold decodePairKind
  split
  case h_5 => grind
  all_goals simp

/-- Settles O3: each opcode of R77 has one row, which accepts what the opcode's format accepts. -/
theorem decoderAcceptsExactlyTheLegalWords : Obligations.DecoderAcceptsExactlyTheLegalWords := by
  intro w
  unfold decode
  split
  next ho => exact formatZ_iff_legalWord ho rfl
  next ho => exact formatC_named_iff_legalWord (by decide) decodeInfSel_isSome_iff ho rfl
  next ho => exact formatZ_iff_legalWord ho rfl
  next ho => exact formatBC_iff_legalWord ho rfl
  next ho => exact formatAC_iff_legalWord ho rfl
  next ho => exact formatAC_iff_legalWord ho rfl
  next ho => exact formatBC_iff_legalWord ho rfl
  next ho => exact formatC_iff_legalWord ho rfl
  next ho => exact formatAC_named_iff_legalWord (by decide) decodeTarget_isSome_iff ho rfl
  next ho => exact formatC_iff_legalWord ho rfl
  next ho => exact formatC_iff_legalWord ho rfl
  next ho => exact formatC_named_iff_legalWord (by decide) decodePairKind_isSome_iff ho rfl
  next ho => exact formatAC_iff_legalWord ho rfl
  next ho => exact formatAC_iff_legalWord ho rfl
  next ho => exact formatA_iff_legalWord ho rfl
  next ho => exact formatAC_iff_legalWord ho rfl
  next ho => exact formatC_iff_legalWord ho rfl
  next ho => exact formatC_iff_legalWord ho rfl
  next ho => exact formatZ_iff_legalWord ho rfl
  next ho => exact formatA_iff_legalWord ho rfl
  next ho => exact formatAC_iff_legalWord ho rfl
  next ho => exact formatC_iff_legalWord ho rfl
  next ho => exact formatZ_iff_legalWord ho rfl
  next ho => exact formatC_named_iff_legalWord (by decide) decodePermKind_isSome_iff ho rfl
  next ho => exact formatC_named_iff_legalWord (by decide) decodePairKind_isSome_iff ho rfl
  next ho => exact formatC_iff_legalWord ho rfl
  next ho => exact formatC_iff_legalWord ho rfl
  next ho => exact formatZ_iff_legalWord ho rfl
  next =>
    refine iff_of_false nofun fun hw => ?_
    have := hw.fieldOpc_mem
    simp only [opcodes, List.mem_cons, List.not_mem_nil, or_false] at this
    grind

end

end Sys2Proof
end

section
/-! One step: an idle engine, a command word that decodes, and one that does not (R70, R78 to R81). -/

namespace Sys2Proof.Machine

section
variable {s : State} {w : Word} {rest : List HostEvent} (hv : s.engine.inst.Valid)
include hv

theorem step_of_no_event (hp : s.port.pending = []) : step s = .next s := by
  rw [step, if_pos hv, hp]

theorem step_of_decode_ok {i : Instr} (hp : s.port.pending = .command w :: rest) (hd : decode w = .ok i) :
    step s = exec i (s.withPending rest) := by
  rw [step, if_pos hv, hp]
  simp only [hd]

theorem step_of_decode_error {r : Reject} (hp : s.port.pending = .command w :: rest) (hd : decode w = .error r) :
    step s = .next ((s.withPending rest).faulted .illegalCommand (fieldOpc w)) := by
  rw [step, if_pos hv, hp]
  simp only [hd]
  rfl

end

/-- A command gives one response and takes no event (R70). -/
theorem exec_gives_one_response (i : Instr) (s : State) :
    ∃ t r, exec i s = .next t ∧ t.port.pending = s.port.pending ∧ t.port.responses = r :: s.port.responses := by
  rcases exec_spec i s with ⟨f, info, -, h⟩ | ⟨e, d, -, h⟩
  · exact ⟨_, _, h, rfl, rfl⟩
  · exact ⟨_, _, h, rfl, rfl⟩

/-- Settles O8. -/
theorem engineWithoutCommandDoesNothing : Obligations.EngineWithoutCommandDoesNothing :=
  fun _ => step_of_no_event

/-- Settles O6. -/
theorem stepRunsTheDecodedInstruction : Obligations.StepRunsTheDecodedInstruction :=
  fun _ _ _ _ hv => step_of_decode_ok hv

/-- Settles O7: a word that is not legal is one that the decoder refuses (O3). -/
theorem illegalWordFaultsWithItsOpcode : Obligations.IllegalWordFaultsWithItsOpcode := by
  intro s w rest hv hp hw
  cases hd : decode w with
  | ok i => exact absurd ((decoderAcceptsExactlyTheLegalWords w).mp ⟨i, hd⟩) hw
  | error r => rw [step_of_decode_error hv hp hd, fieldOpc_eq_div]

/-- Settles O10: a word that decodes gets the response of its command, any other the fault of the decoder. -/
theorem everyCommandWordGetsOneResponse : Obligations.EveryCommandWordGetsOneResponse := by
  intro s w rest hv hp
  cases hd : decode w with
  | ok i =>
    rw [step_of_decode_ok hv hp hd]
    exact exec_gives_one_response i (s.withPending rest)
  | error r => exact ⟨_, _, step_of_decode_error hv hp hd, rfl, rfl⟩

end Sys2Proof.Machine
end

section
/-! The fields of a response word, as bit fields (R73, R220). -/

namespace Sys2Proof.Machine

variable (f : BitVec 1) (code data : Nat)

theorem packResponse_extract_zero_high : (packResponse f code data).extractLsb' 28 3 = 0 := by
  simp only [packResponse]
  rw [BitVec.extractLsb'_append_eq_of_le (by decide), BitVec.extractLsb'_append_eq_of_le (by decide),
    BitVec.extractLsb'_append_eq_of_le (by decide)]
  exact BitVec.extractLsb'_append_eq_right

theorem packResponse_extract_code : (packResponse f code data).extractLsb' 24 4 = BitVec.ofNat 4 code := by
  simp only [packResponse]
  rw [BitVec.extractLsb'_append_eq_of_le (by decide), BitVec.extractLsb'_append_eq_of_le (by decide)]
  exact BitVec.extractLsb'_append_eq_right

theorem packResponse_extract_zero_low : (packResponse f code data).extractLsb' 16 8 = 0 := by
  simp only [packResponse]
  rw [BitVec.extractLsb'_append_eq_of_le (by decide)]
  exact BitVec.extractLsb'_append_eq_right

theorem packResponse_extract_data : (packResponse f code data).extractLsb' 0 16 = BitVec.ofNat 16 data :=
  BitVec.extractLsb'_append_eq_right

theorem faultCode_range (k : FaultKind) : faultCode k ≠ 0 ∧ faultCode k ≤ 8 := by
  cases k <;> decide

/-- Settles O5: both kinds of response are packed alike, and the codes are those of R220. -/
theorem responseWordsHaveTheirFields : Obligations.ResponseWordsHaveTheirFields := by
  refine ⟨fun d k info => ⟨⟨successResponse_fault d, ?_, ?_, ?_, ?_⟩,
    faultResponse_fault k info, ?_, faultResponse_code k info, ?_, ?_, ?_, ?_⟩, ?_⟩
  · exact packResponse_extract_zero_high _ _ _
  · exact packResponse_extract_code _ _ _
  · exact packResponse_extract_zero_low _ _ _
  · exact packResponse_extract_data _ _ _
  · exact packResponse_extract_zero_high _ _ _
  · exact (faultCode_range k).1
  · exact (faultCode_range k).2
  · exact packResponse_extract_zero_low _ _ _
  · exact packResponse_extract_data _ _ _
  · decide

end Sys2Proof.Machine
end

section
/-! A list of entries after a list of writes. -/

namespace Sys2Proof.Machine

section
variable {α : Type} {t : List α} {ws : List (Nat × α)} {i : Nat}

/-- The table after the writes `ws`, each an entry number and its value, the first one first. -/
def setAll (t : List α) (ws : List (Nat × α)) : List α := ws.foldl (fun t w => t.set w.1 w.2) t

@[simp] theorem setAll_nil (t : List α) : setAll t [] = t := rfl

@[simp] theorem setAll_cons (t : List α) (w : Nat × α) (ws : List (Nat × α)) :
    setAll t (w :: ws) = setAll (t.set w.1 w.2) ws := rfl

@[simp] theorem setAll_length (t : List α) (ws : List (Nat × α)) : (setAll t ws).length = t.length := by
  induction ws generalizing t with
  | nil => rfl
  | cons w ws ih => simp [ih]

/-- An entry that no write names stays as it was. -/
theorem getElem?_setAll_of_not_written (h : ∀ w ∈ ws, w.1 ≠ i) : (setAll t ws)[i]? = t[i]? := by
  induction ws generalizing t with
  | nil => rfl
  | cons w ws ih =>
    obtain ⟨hw, hws⟩ := List.forall_mem_cons.mp h
    rw [setAll_cons, ih hws, List.getElem?_set_ne hw]

/-- An entry holds the value `v` written to it when no write gives it another value. -/
theorem getElem?_setAll_of_written {v : α} (hi : i < t.length) (hmem : (i, v) ∈ ws)
    (hv : ∀ w ∈ ws, w.1 = i → w.2 = v) : (setAll t ws)[i]? = some v := by
  induction ws generalizing t with
  | nil => cases hmem
  | cons w ws ih =>
    rw [setAll_cons]
    by_cases hlater : (i, v) ∈ ws
    · exact ih (by simpa using hi) hlater fun u hu => hv u (List.mem_cons_of_mem _ hu)
    · obtain rfl : (i, v) = w := (List.mem_cons.mp hmem).resolve_right hlater
      have hrest : ∀ u ∈ ws, u.1 ≠ i := by
        rintro ⟨k, x⟩ hu rfl
        exact hlater (hv _ (List.mem_cons_of_mem _ hu) rfl ▸ hu)
      rw [getElem?_setAll_of_not_written hrest, List.getElem?_set_self hi]

end

end Sys2Proof.Machine
end

section
/-! Pseudo-commands: their expansions are lists of writes, and each command of one succeeds (R83). -/

namespace Sys2Proof.Machine

/-! ### The writes of an expansion -/

/-- A staged pair as writes: in both directions, a self-pair once. -/
def pairWrites (ab : Nat × Nat) : List (Nat × Nat) :=
  if ab.1 = ab.2 then [(ab.1, ab.1)] else [(ab.1, ab.2), (ab.2, ab.1)]

/-- The values `vs` as writes to the entries from `i` on. -/
def writesFrom (i : Nat) (vs : List Nat) : List (Nat × Nat) := (vs.zipIdx i).map Prod.swap

theorem stageFrom_eq_map (i : Nat) (ds : List Nat) :
    stageFrom i ds = (writesFrom i ds).map fun w => .stg w.1 w.2 := by
  induction ds generalizing i with
  | nil => rfl
  | cons d ds ih => simp [stageFrom, writesFrom, ih]

theorem listFrom_eq_map (k : Nat) (ps : List Nat) :
    listFrom k ps = (writesFrom k ps).map fun w => .plw w.1 w.2 := by
  induction ps generalizing k with
  | nil => rfl
  | cons p ps ih => simp [listFrom, writesFrom, ih]

theorem flatMap_stagePair_eq_map (ps : List (Nat × Nat)) :
    ps.flatMap stagePair = (ps.flatMap pairWrites).map fun w => .stg w.1 w.2 := by
  rw [List.map_flatMap]
  congr 1
  funext ab
  unfold stagePair pairWrites
  split <;> rfl

/-- Each entry of the list is written once, to the entry of its own number. -/
theorem mem_writesFrom_zero {vs : List Nat} {w : Nat × Nat} :
    w ∈ writesFrom 0 vs ↔ w.1 < vs.length ∧ readEntry vs w.1 = w.2 := by
  obtain ⟨i, v⟩ := w
  have hswap : (i, v) ∈ writesFrom 0 vs ↔ (v, i) ∈ vs.zipIdx := by simp [writesFrom]
  rw [hswap, List.mk_mem_zipIdx_iff_getElem?, List.getElem?_eq_some_iff]
  simp +contextual [readEntry, List.getD_eq_getElem?_getD, ← exists_prop]

/-- No two of these writes give one entry different values. -/
theorem writesFrom_zero_agree {vs : List Nat} {w : Nat × Nat} {i : Nat} (hw : w ∈ writesFrom 0 vs) (hi : w.1 = i) :
    w.2 = readEntry vs i := by
  obtain ⟨-, hv⟩ := mem_writesFrom_zero.mp hw
  rw [← hv, hi]

/-- A pair is written in both directions, and nothing else. -/
theorem mem_pairWrites {ab w : Nat × Nat} :
    w ∈ pairWrites ab ↔ w = (ab.1, ab.2) ∨ w = (ab.2, ab.1) := by
  unfold pairWrites
  split
  next h => simp [h]
  next => simp

theorem mem_flatMap_pairWrites {ps : List (Nat × Nat)} {w : Nat × Nat} :
    w ∈ ps.flatMap pairWrites ↔ ∃ ab ∈ ps, w = (ab.1, ab.2) ∨ w = (ab.2, ab.1) := by
  simp [mem_pairWrites]

/-! ### Issuing one command after another -/

/-- A command that succeeds hands its state to the rest of the sequence. -/
theorem issueAll_cons_of_next {i : Instr} {is : List Instr} {s t : State} (h : exec i s = .next t) :
    issueAll (i :: is) s = issueAll is t := by
  rw [issueAll, h]

theorem issueAll_append_of_next {is js : List Instr} {s t : State} (h : issueAll is s = .next t) :
    issueAll (is ++ js) s = issueAll js t := by
  induction is generalizing s with
  | nil =>
    cases h
    rfl
  | cons i is ih =>
    obtain ⟨u, -, hu, -⟩ := exec_gives_one_response i s
    rw [issueAll_cons_of_next hu] at h
    rw [List.cons_append, issueAll_cons_of_next hu, ih h]

theorem exec_stc (s : State) :
    exec .stc s = .next (s.answered { s.engine with staging := Staging.clear s.engine.n } 0) := rfl

theorem exec_stg {s : State} {i d : Nat} (hi : i < s.engine.n) (hd : d < s.engine.n) :
    exec (.stg i d) s = .next (s.answered { s.engine with staging := s.engine.staging.write i d } 0) :=
  (State.needIndex_of_lt hi).trans (State.needIndex_of_lt hd)

theorem exec_plw {s : State} {k : Nat} (p : Nat) (hk : k < s.engine.rmax) :
    exec (.plw k p) s = .next (s.answered { s.engine with posList := s.engine.posList.set k p } 0) :=
  State.needListSlot_of_lt hk

theorem exec_sps (s : State) :
    exec (.sps s.engine.nrot) s = .next (s.answered (s.engine.setPositions s.engine.listedPositions) 0) :=
  State.needLength_of_eq rfl

theorem exec_spr {s : State} {k : Nat} (p : Nat) (hk : k < s.engine.nrot) :
    exec (.spr k p) s = .next (s.answered (s.engine.setPos k (s.engine.rawPosition p)) 0) :=
  State.needSlot_of_lt hk

/-- The staging buffer after the writes `ws`. -/
def Staging.writeAll (g : Staging) (ws : List (Nat × Nat)) : Staging :=
  { written := setAll g.written (ws.map fun w => (w.1, true)), data := setAll g.data ws }

/-- STG after STG: the entries are written one by one, each with a success response. -/
theorem issueAll_stg {ws : List (Nat × Nat)} {s : State} (h : ∀ w ∈ ws, w.1 < s.engine.n ∧ w.2 < s.engine.n) :
    ∃ t, issueAll (ws.map fun w => .stg w.1 w.2) s = .next t ∧
      t.engine = { s.engine with staging := s.engine.staging.writeAll ws } ∧
      t.port.responses = List.replicate ws.length (successResponse 0) ++ s.port.responses := by
  induction ws generalizing s with
  | nil => exact ⟨s, rfl, rfl, rfl⟩
  | cons w ws ih =>
    obtain ⟨⟨hi, hd⟩, hws⟩ := List.forall_mem_cons.mp h
    obtain ⟨t, hrun, he, hr⟩ :=
      ih (s := s.answered { s.engine with staging := s.engine.staging.write w.1 w.2 } 0) hws
    refine ⟨t, (issueAll_cons_of_next (exec_stg hi hd)).trans hrun, he, ?_⟩
    rw [hr, State.answered_responses, List.length_cons, List.replicate_succ', List.append_assoc]
    rfl

/-- STC and STG after STG: the staging buffer holds the writes and nothing else. -/
theorem issueAll_stc_stg {ws : List (Nat × Nat)} {s : State} (h : ∀ w ∈ ws, w.1 < s.engine.n ∧ w.2 < s.engine.n) :
    ∃ t, issueAll (.stc :: ws.map fun w => .stg w.1 w.2) s = .next t ∧
      t.engine = { s.engine with staging := (Staging.clear s.engine.n).writeAll ws } ∧
      t.port.responses = List.replicate (ws.length + 1) (successResponse 0) ++ s.port.responses := by
  obtain ⟨t, hrun, he, hr⟩ := issueAll_stg (s := s.answered { s.engine with staging := Staging.clear s.engine.n } 0) h
  refine ⟨t, (issueAll_cons_of_next (exec_stc s)).trans hrun, he, ?_⟩
  rw [hr, State.answered_responses, List.replicate_succ', List.append_assoc]
  rfl

/-- PLW after PLW: the elements are written one by one. -/
theorem issueAll_plw {ws : List (Nat × Nat)} {s : State} (h : ∀ w ∈ ws, w.1 < s.engine.rmax) :
    ∃ t, issueAll (ws.map fun w => .plw w.1 w.2) s = .next t ∧
      t.engine = { s.engine with posList := setAll s.engine.posList ws } := by
  induction ws generalizing s with
  | nil => exact ⟨s, rfl, rfl⟩
  | cons w ws ih =>
    obtain ⟨hk, hws⟩ := List.forall_mem_cons.mp h
    obtain ⟨t, hrun, he⟩ := ih (s := s.answered { s.engine with posList := s.engine.posList.set w.1 w.2 } 0) hws
    exact ⟨t, (issueAll_cons_of_next (exec_plw w.2 hk)).trans hrun, he⟩

/-! ### What the tables read after the writes -/

/-- A staging entry that some write names, each such write giving it the value `d`. -/
theorem Staging.writeAll_of_written {g : Staging} {n i d : Nat} {ws : List (Nat × Nat)} (hg : g.Ok n) (hi : i < n)
    (hmem : (i, d) ∈ ws) (hd : ∀ w ∈ ws, w.1 = i → w.2 = d) :
    (g.writeAll ws).isWritten i = true ∧ (g.writeAll ws).entry i = d := by
  obtain ⟨⟨hw, hl⟩, -⟩ := hg
  constructor
  · have hbit : (setAll g.written (ws.map fun w => (w.1, true)))[i]? = some true :=
      getElem?_setAll_of_written (hw.symm ▸ hi) (List.mem_map.mpr ⟨_, hmem, rfl⟩) (by simp)
    simp [writeAll, isWritten, readBit, List.getD_eq_getElem?_getD, hbit]
  · have hval := getElem?_setAll_of_written (hl.symm ▸ hi) hmem hd
    simp [writeAll, entry, readEntry, List.getD_eq_getElem?_getD, hval]

/-- A staging entry that no write names. -/
theorem Staging.writeAll_of_not_written {g : Staging} {i : Nat} {ws : List (Nat × Nat)} (h : ∀ w ∈ ws, w.1 ≠ i) :
    (g.writeAll ws).isWritten i = g.isWritten i ∧ (g.writeAll ws).entry i = g.entry i := by
  constructor
  · have hbit : (setAll g.written (ws.map fun w => (w.1, true)))[i]? = g.written[i]? :=
      getElem?_setAll_of_not_written (List.forall_mem_map.mpr h)
    simp only [writeAll, isWritten, readBit, List.getD_eq_getElem?_getD, hbit]
  · simp only [writeAll, entry, readEntry, List.getD_eq_getElem?_getD, getElem?_setAll_of_not_written h]

/-- A table of numbers after the values `vs` have been written to its first entries. -/
theorem readEntry_setAll_writesFrom_zero {t vs : List Nat} {i : Nat} (ht : i < t.length) (hi : i < vs.length) :
    readEntry (setAll t (writesFrom 0 vs)) i = readEntry vs i := by
  have hval := getElem?_setAll_of_written ht (mem_writesFrom_zero.mpr ⟨hi, rfl⟩) fun _ =>
    writesFrom_zero_agree
  simp [readEntry, List.getD_eq_getElem?_getD, hval]

/-- The two pairs share no index. -/
def SharesNoIndex (x y : Nat × Nat) : Prop := x.1 ≠ y.1 ∧ x.1 ≠ y.2 ∧ x.2 ≠ y.1 ∧ x.2 ≠ y.2

theorem sharesNoIndex_symm : Std.Symm SharesNoIndex :=
  ⟨fun _ _ ⟨h11, h12, h21, h22⟩ => ⟨h11.symm, h21.symm, h12.symm, h22.symm⟩⟩

/-- The writes of pairs that share no index never give one entry two values. -/
theorem pairWrites_agree {ps : List (Nat × Nat)} (hps : ps.Pairwise SharesNoIndex) {u w : Nat × Nat}
    (hu : u ∈ ps.flatMap pairWrites) (hw : w ∈ ps.flatMap pairWrites) (hi : w.1 = u.1) : w.2 = u.2 := by
  obtain ⟨ab, hab, hu⟩ := mem_flatMap_pairWrites.mp hu
  obtain ⟨cd, hcd, hw⟩ := mem_flatMap_pairWrites.mp hw
  by_cases hne : ab = cd
  · grind
  · have := sharesNoIndex_symm
    obtain ⟨h11, h12, h21, h22⟩ := hps.forall hab hcd hne
    grind

/-! ### The pseudo-commands -/

/-- Settles O57: the writes of TBL give each entry its value once. -/
theorem tblStagesTheWholeTable : Obligations.TblStagesTheWholeTable := by
  intro s ds _ hlen hds
  have hrange : ∀ w ∈ writesFrom 0 ds, w.1 < s.engine.n ∧ w.2 < s.engine.n := by
    intro w hw
    obtain ⟨hi, hv⟩ := mem_writesFrom_zero.mp hw
    exact ⟨hlen ▸ hi, hv ▸ hds _ (readEntry_mem hi)⟩
  obtain ⟨t, hrun, he, hr⟩ := issueAll_stc_stg hrange
  refine ⟨t, _, ?_, he, ?_, fun i hi => ?_⟩
  · rw [expandPseudo, stageFrom_eq_map, hrun]
  · rw [hr]
    simp [writesFrom, hlen]
  · exact Staging.writeAll_of_written (Staging.clear_ok _) hi (mem_writesFrom_zero.mpr ⟨hlen.symm ▸ hi, rfl⟩)
      fun _ => writesFrom_zero_agree

/-- Settles O59: each pair is written in both directions, and no two writes of PRS disagree. -/
theorem prsStagesPairsInBothDirections : Obligations.PrsStagesPairsInBothDirections := by
  intro s ps _ hrange hps
  have hwrites : ∀ w ∈ ps.flatMap pairWrites, w.1 < s.engine.n ∧ w.2 < s.engine.n := by
    intro w hw
    obtain ⟨ab, hab, rfl | rfl⟩ := mem_flatMap_pairWrites.mp hw
    · exact hrange ab hab
    · exact (hrange ab hab).symm
  have hread : ∀ w ∈ ps.flatMap pairWrites,
      ((Staging.clear s.engine.n).writeAll (ps.flatMap pairWrites)).isWritten w.1 = true ∧
      ((Staging.clear s.engine.n).writeAll (ps.flatMap pairWrites)).entry w.1 = w.2 := fun w hw =>
    Staging.writeAll_of_written (Staging.clear_ok _) (hwrites w hw).1 hw fun _ => pairWrites_agree hps hw
  obtain ⟨t, hrun, he, -⟩ := issueAll_stc_stg hwrites
  refine ⟨t, _, ?_, he, fun ab hab => ?_, fun v _ hv => ?_⟩
  · rw [expandPseudo, flatMap_stagePair_eq_map, hrun]
  · obtain ⟨hw, hd⟩ := hread (ab.1, ab.2) (mem_flatMap_pairWrites.mpr ⟨ab, hab, .inl rfl⟩)
    obtain ⟨hw', hd'⟩ := hread (ab.2, ab.1) (mem_flatMap_pairWrites.mpr ⟨ab, hab, .inr rfl⟩)
    exact ⟨hw, hd, hw', hd'⟩
  · have hnone : ∀ w ∈ ps.flatMap pairWrites, w.1 ≠ v := by
      intro w hw
      obtain ⟨ab, hab, rfl | rfl⟩ := mem_flatMap_pairWrites.mp hw
      · exact (hv ab hab).1.symm
      · exact (hv ab hab).2.symm
    simpa using Staging.writeAll_of_not_written (g := Staging.clear s.engine.n) hnone

theorem Engine.Inv.posList_sized {e : Engine} (h : e.Inv) : e.posList.length = e.rmax := by
  obtain ⟨_, ⟨_, _, _, _, hlen⟩, _⟩ := h
  exact hlen

theorem Engine.Inv.nrot_le {e : Engine} (h : e.Inv) : e.nrot ≤ e.rmax := by
  obtain ⟨_, _, hnrot, _⟩ := h
  exact hnrot

/-- SETPOS with one position for each installed rotor: the list is written, then applied modulo `N` (R83, R181). -/
theorem issueAll_setpos {s : State} {ps : List Nat} (hs : s.Safe) (hlen : ps.length = s.engine.nrot) :
    ∃ t l q, issueAll (expandPseudo (.setpos ps)) s = .next t ∧
      t.engine = { s.engine.setPositions q with posList := l } ∧ q.length = s.engine.nrot ∧
      ∀ j, j < s.engine.nrot → readEntry q j = readEntry ps j % s.engine.n := by
  have hslots : ∀ w ∈ writesFrom 0 ps, w.1 < s.engine.rmax := by
    intro w hw
    obtain ⟨hk, -⟩ := mem_writesFrom_zero.mp hw
    exact (hlen ▸ hk).trans_le hs.nrot_le
  obtain ⟨t, hrun, he⟩ := issueAll_plw hslots
  have hnrot : ps.length = t.engine.nrot := by rw [he, hlen, Engine.nrot_mk]; rfl
  refine ⟨t.answered (t.engine.setPositions t.engine.listedPositions) 0, _, t.engine.listedPositions, ?_,
    by rw [State.answered_engine, he]; rfl, by rw [Engine.listedPositions_length, ← hnrot, hlen], fun j hj => ?_⟩
  · rw [expandPseudo, listFrom_eq_map, issueAll_append_of_next hrun, hnrot, issueAll_cons_of_next (exec_sps t)]
    rfl
  · have hl : j < s.engine.posList.length := hs.posList_sized ▸ hj.trans_le hs.nrot_le
    have hread := readEntry_setAll_writesFrom_zero hl (hlen.symm ▸ hj)
    rw [Engine.listedPositions, readEntry_map_range _ (hnrot ▸ hlen.symm ▸ hj), Engine.rawPosition, Engine.pl, he]
    exact congrArg (· % s.engine.n) hread

/-- Settles O58: SETPOS sets all positions, RRS one to `0 mod N`. -/
theorem setposAndRrsSetPositions : Obligations.SetposAndRrsSetPositions := by
  intro s ps k hs hlen
  refine ⟨?_, fun hk =>
    ⟨s.engine.setPos k (s.engine.rawPosition 0), ?_, s.engine.setPos_same k _, ?_, fun j hj => ?_⟩⟩
  · obtain ⟨t, l, q, hrun, he, hq, hread⟩ := issueAll_setpos hs hlen
    refine ⟨t, hrun, fun j hj => ?_, ?_⟩
    · rw [he, ← hread j hj]
      exact s.engine.setPositions_pos q hq hj
    · rw [he]
      exact s.engine.setPositions_same q hq
  · exact issueAll_cons_of_next (exec_spr 0 hk)
  · rw [s.engine.setPos_pos _ hk, if_pos rfl, Engine.rawPosition, Nat.zero_mod]
  · exact s.engine.setPos_slot_ne _ hj

end Sys2Proof.Machine
end

section
/-! Permutation tables and the staging buffer (R100 to R109). -/

namespace Sys2Proof.Machine

/-! ### Installed wirings -/

/-- Whatever part of the engine a command other than NEW writes, the wirings of the installed rotors stay. -/
theorem WritesOnly.keeps_wiring {i : Instr} {e e' : Engine} (h : WritesOnly i e e') (hi : i ≠ .new) :
    e.nrot ≤ e'.nrot ∧
    ∀ k, k < e.nrot → (e'.slot k).fwd = (e.slot k).fwd ∧ (e'.slot k).inv = (e.slot k).inv := by
  cases h with
  | reset hw => exact absurd hw hi
  | positions _ hsame =>
    obtain ⟨-, hnrot, hwiring, -⟩ := hsame
    exact ⟨hnrot.ge, fun k _ => hwiring k⟩
  | @rotor c =>
    refine ⟨by rw [Engine.installRotor_nrot]; exact Nat.le_succ _, fun k hk => ?_⟩
    rw [e.installRotor_slot_lt c hk]
    exact ⟨rfl, rfl⟩
  | nothing | plugboard | reflector | staging | posList => exact ⟨le_rfl, fun _ _ => ⟨rfl, rfl⟩⟩

/-- Settles O15, by the part of the engine the command writes. -/
theorem installedWiringIsNeverModified : Obligations.InstalledWiringIsNeverModified :=
  fun _ _ _ hi h => (exec_writesOnly h).keeps_wiring hi

/-! ### Lookups -/

theorem exec_pfw {s : State} {k i : Nat} (hk : k < s.engine.nrot) (hi : i < s.engine.n) :
    exec (.pfw k i) s = .next (s.answered s.engine (s.engine.fwd k i)) :=
  (State.needSlot_of_lt hk).trans (State.needIndex_of_lt hi)

theorem exec_pin {s : State} {k i : Nat} (hk : k < s.engine.nrot) (hi : i < s.engine.n) :
    exec (.pin k i) s = .next (s.answered s.engine (s.engine.inv k i)) :=
  (State.needSlot_of_lt hk).trans (State.needIndex_of_lt hi)

/-- Settles O23: both operand checks pass. -/
theorem pfwAndPinReadTheWiring : Obligations.PfwAndPinReadTheWiring :=
  fun _ _ _ hk hi => ⟨exec_pfw hk hi, exec_pin hk hi⟩

theorem Engine.Inv.iPerm {e : Engine} (h : e.Inv) : e.IPerm := by
  obtain ⟨_, _, _, _, hperm, _⟩ := h
  exact hperm

/-- Settles O24: by I-PERM the first answer is an index, and the other table takes it back. -/
theorem permutationLookupsUndoEachOther : Obligations.PermutationLookupsUndoEachOther := by
  intro s k i hs hk hi
  obtain ⟨hfwd, hinv, hinv_fwd, hfwd_inv⟩ := hs.iPerm k hk i hi
  refine ⟨⟨_, exec_pfw hk hi, ?_⟩, ⟨_, exec_pin hk hi, ?_⟩⟩
  · rw [exec_pin hk hfwd, hinv_fwd]
  · rw [exec_pfw hk hinv, hfwd_inv]

/-! ### Writing the staging buffer -/

theorem Staging.write_self {g : Staging} {n i : Nat} (d : Nat) (hg : g.Ok n) (hi : i < n) :
    (g.write i d).isWritten i = true ∧ (g.write i d).entry i = d := by
  obtain ⟨⟨hw, hl⟩, -⟩ := hg
  exact ⟨readBit_set_self (hw.symm ▸ hi), readEntry_set_self (hl.symm ▸ hi)⟩

theorem Staging.write_ne (g : Staging) {i j : Nat} (d : Nat) (hj : j ≠ i) :
    (g.write i d).isWritten j = g.isWritten j ∧ (g.write i d).entry j = g.entry j :=
  ⟨readBit_set_ne _ _ hj, readEntry_set_ne _ _ hj⟩

/-- Settles O22: both commands succeed, and what the buffer then holds is read by the laws of clear and write. -/
theorem stcAndStgWriteTheStagingBuffer : Obligations.StcAndStgWriteTheStagingBuffer := by
  intro s
  refine ⟨⟨_, exec_stc s, fun i _ => ⟨Staging.clear_isWritten _ i, Staging.clear_entry _ i⟩⟩, ?_⟩
  intro i d hs hi hd
  obtain ⟨hwritten, hentry⟩ := Staging.write_self d hs.staging_ok hi
  exact ⟨_, exec_stg hi hd, hwritten, hentry, fun _ hj => Staging.write_ne _ d hj⟩

/-! ### A staged table that is no permutation -/

/-- A gap is refused whatever values are staged (R104, first loop). -/
theorem Staging.permutation_of_gap {g : Staging} {n i : Nat} (h : g.firstGap n = some i) :
    g.permutation n = .error i := by
  rw [permutation, h]

/-- Without a gap the first repeat is refused (R104, second loop). -/
theorem Staging.permutation_of_repeat {g : Staging} {n i : Nat} (hgap : g.firstGap n = none)
    (h : g.firstRepeat n = some i) : g.permutation n = .error i := by
  rw [permutation, hgap, h]

/-- ROT with a free slot refuses what the candidate check refuses (R194). -/
theorem exec_rot_of_error {s : State} {kind : PermKind} {i : Nat} (hfree : s.engine.nrot ≠ s.engine.rmax)
    (h : s.engine.permCand kind = .error i) : exec (.rot kind) s = .next (s.faulted .invariant i) := by
  rw [exec, execRot, if_neg hfree, h]
  rfl

/-- Settles O48: the first loop of R104 finds the smallest gap, and without a gap the second the smallest repeat. -/
theorem rotRefusesAStagedTableThatIsNoPermutation : Obligations.RotRefusesAStagedTableThatIsNoPermutation := by
  intro s i hfree hi
  constructor
  · intro hgap hbelow
    exact exec_rot_of_error hfree (Staging.permutation_of_gap (Staging.firstGap_eq_some.mpr ⟨hi, hgap, hbelow⟩))
  · intro hwritten hrepeat hbelow
    exact exec_rot_of_error hfree (Staging.permutation_of_repeat (Staging.firstGap_eq_none.mpr hwritten)
      (Staging.firstRepeat_eq_some.mpr ⟨hi, hrepeat, fun h hh j => hbelow h j hh⟩))

end Sys2Proof.Machine
end

section
/-! Pairing sets: the plugboard, the reflector and the staging buffer taken as a pairing (R120 to R134). -/

namespace Sys2Proof.Machine

/-! ### Connecting and disconnecting -/

theorem exec_con {s : State} {a b : Nat} (ha : a < s.engine.n) (hb : b < s.engine.n)
    (hua : s.engine.plugboard.isPaired a = false) (hub : s.engine.plugboard.isPaired b = false) :
    exec (.con a b) s = .next (s.answered { s.engine with plugboard := s.engine.plugboard.connect a b } 0) := by
  rw [exec, execCon, State.needIndex_of_lt ha, State.needIndex_of_lt hb, State.needUnpaired_of_not hua,
    State.needUnpaired_of_not hub, State.succeed_eq]

/-- The operands of CON are interchangeable (R126). -/
theorem PairSet.connect_comm (p : PairSet) (a b : Nat) : p.connect a b = p.connect b a := by
  rcases eq_or_ne a b with rfl | hne
  · rfl
  · simp only [connect, List.set_comm _ _ hne]

/-- Settles O25: what CON writes does not depend on the order of its operands, and is read back entry by entry. -/
theorem conPairsTwoUnpairedIndices : Obligations.ConPairsTwoUnpairedIndices := by
  intro s a b hs ha hb hua hub
  obtain ⟨hpaired, hpartner⟩ := hs.plugboard_sized
  have paired := s.engine.plugboard.connect_isPaired (hpaired.symm ▸ ha) (hpaired.symm ▸ hb)
  have partner := s.engine.plugboard.connect_partnerOf (hpartner.symm ▸ ha) (hpartner.symm ▸ hb)
  refine ⟨_, exec_con ha hb hua hub, ?_, ?_, ?_, ?_, ?_, fun v hva hvb => ⟨?_, ?_⟩⟩
  · rw [PairSet.connect_comm, exec_con hb ha hub hua]
  · rw [paired, if_pos (.inl rfl)]
  · rw [partner, if_pos rfl, ite_eq_right_iff]
    exact id
  · rw [paired, if_pos (.inr rfl)]
  · rw [partner, if_pos rfl]
  · rw [paired, if_neg (not_or.mpr ⟨hva, hvb⟩)]
  · rw [partner, if_neg hvb, if_neg hva]

/-- Settles O26: CON looks at `a` first, and at `b` only when `a` is unpaired. -/
theorem conOfAPairedIndexConflicts : Obligations.ConOfAPairedIndexConflicts := by
  intro s a b ha hb
  rw [exec, execCon, State.needIndex_of_lt ha, State.needIndex_of_lt hb]
  constructor
  · exact State.needUnpaired_of_paired
  · intro hua hpb
    rw [State.needUnpaired_of_not hua, State.needUnpaired_of_paired hpb]

theorem exec_dis {s : State} {a : Nat} (ha : a < s.engine.n) :
    exec (.dis a) s = .next (s.answered { s.engine with plugboard := s.engine.plugboard.disconnect a } 0) :=
  State.needIndex_of_lt ha

/-- Settles O27: by I-PB the partner is an index too, so DIS clears the entries of both members. -/
theorem disUnpairsBothMembers : Obligations.DisUnpairsBothMembers := by
  intro s a hs ha
  constructor
  · intro hua
    rw [exec_dis ha, PairSet.disconnect_of_unpaired _ hua]
  · intro hpa
    obtain ⟨hpaired, hpartner⟩ := hs.plugboard_sized
    obtain ⟨hu, -, -⟩ := (hs.plugboard_matching a ha).1 hpa
    have paired := s.engine.plugboard.disconnect_isPaired hpa (hpaired.symm ▸ ha) (hpaired.symm ▸ hu)
    have partner := s.engine.plugboard.disconnect_partnerOf hpa (hpartner.symm ▸ ha) (hpartner.symm ▸ hu)
    refine ⟨_, exec_dis ha, fun v hv => ?_, fun v hva hvu => ?_⟩
    · rw [paired, partner, if_pos hv, if_pos hv]
      exact ⟨rfl, rfl⟩
    · have hv := not_or.mpr ⟨hva, hvu⟩
      rw [paired, partner, if_neg hv, if_neg hv]
      exact ⟨rfl, rfl⟩

/-! ### Reading a pairing set -/

theorem PairSet.query_of_paired {p : PairSet} {v : Nat} (h : p.isPaired v = true) : p.query v = 256 + p.partnerOf v :=
  if_pos h

theorem PairSet.query_of_unpaired {p : PairSet} {v : Nat} (h : p.isPaired v = false) : p.query v = 0 := by
  simp [query, h]

theorem exec_isp {s : State} {v : Nat} (t : Target) (hv : v < s.engine.n) :
    exec (.isp t v) s = .next (s.answered s.engine ((s.engine.target t).query v)) :=
  State.needIndex_of_lt hv

/-- Settles O28: ISP answers the query of the pairing set its target names. -/
theorem ispReportsThePairing : Obligations.IspReportsThePairing := by
  intro s v hv
  rw [exec_isp .pb hv, exec_isp .rf hv]
  refine ⟨fun h => ?_, fun h => ?_, fun h => ?_, fun h => ?_⟩
  · rw [Engine.target, PairSet.query_of_paired h]
  · rw [Engine.target, PairSet.query_of_unpaired h]
  · rw [Engine.target, PairSet.query_of_paired h]
  · rw [Engine.target, PairSet.query_of_unpaired h]

/-! ### The plugboard as a map -/

theorem Engine.plugEnc_of_paired {e : Engine} {v : Nat} (h : e.plugboard.isPaired v = true) :
    e.plugEnc v = e.plugboard.partnerOf v :=
  if_pos h

theorem Engine.plugEnc_of_unpaired {e : Engine} {v : Nat} (h : e.plugboard.isPaired v = false) : e.plugEnc v = v := by
  simp [plugEnc, h]

/-- The plugboard maps indices to indices and is an involution (R125). -/
theorem Engine.Inv.plugEnc_involution {e : Engine} (h : e.Inv) {v : Nat} (hv : v < e.n) :
    e.plugEnc v < e.n ∧ e.plugEnc (e.plugEnc v) = v := by
  cases hp : e.plugboard.isPaired v with
  | false => simp [Engine.plugEnc_of_unpaired hp, hv]
  | true =>
    obtain ⟨hlt, hback, hinv⟩ := (h.plugboard_matching v hv).1 hp
    rw [Engine.plugEnc_of_paired hp, Engine.plugEnc_of_paired hback]
    exact ⟨hlt, hinv⟩

theorem exec_plg {s : State} {v : Nat} (hv : v < s.engine.n) :
    exec (.plg v) s = .next (s.answered s.engine (s.engine.plugEnc v)) :=
  State.needIndex_of_lt hv

/-- Settles O29: PLG answers the plugboard's map, an involution of the indices by I-PB. -/
theorem plgPassesUnpairedIndicesThrough : Obligations.PlgPassesUnpairedIndicesThrough := by
  intro s v hv
  refine ⟨fun hp => ?_, fun hp => ?_, fun hs => ?_⟩
  · rw [exec_plg hv, Engine.plugEnc_of_paired hp]
  · rw [exec_plg hv, Engine.plugEnc_of_unpaired hp]
  · obtain ⟨hlt, hinv⟩ := hs.plugEnc_involution hv
    refine ⟨_, hlt, exec_plg hv, ?_⟩
    rw [exec_plg hlt, hinv]

/-! ### The reflector as a map -/

theorem exec_rfe_of_paired {s : State} {v : Nat} (hv : v < s.engine.n) (hp : s.engine.reflector.isPaired v = true) :
    exec (.rfe v) s = .next (s.answered s.engine (s.engine.reflector.partnerOf v)) :=
  (State.needIndex_of_lt hv).trans (State.needReflected_of_paired hp)

theorem exec_rfe_of_unpaired {s : State} {v : Nat} (hv : v < s.engine.n)
    (hp : s.engine.reflector.isPaired v = false) : exec (.rfe v) s = .next (s.faulted .notFound v) :=
  (State.needIndex_of_lt hv).trans (State.needReflected_of_not hp)

/-- A reflector that is installed is total (I-RF). -/
theorem Engine.Inv.reflector_total {e : Engine} (h : e.Inv) (hne : ¬ e.reflector.Empty e.n) :
    e.reflector.Total e.n := by
  obtain ⟨_, _, _, _, _, _, hrf, _⟩ := h
  exact hrf.resolve_left hne

/-- Settles O30: an installed reflector is total by I-RF, so RFE of the answer finds a partner, the index. -/
theorem rfeReadsThePartner : Obligations.RfeReadsThePartner := by
  intro s v hv
  refine ⟨exec_rfe_of_paired hv, exec_rfe_of_unpaired hv, fun hs hne => ?_⟩
  have htotal := hs.reflector_total hne
  obtain ⟨hp, hlt, hfix, hinv⟩ := htotal v hv
  obtain ⟨hback, -⟩ := htotal _ hlt
  refine ⟨_, hlt, hfix, exec_rfe_of_paired hv hp, ?_⟩
  rw [exec_rfe_of_paired hlt hback, hinv]

/-! ### Constructed pairing sets -/

/-- PLB of a symmetric candidate puts it in place of the plugboard (R134). -/
theorem exec_plb_of_symmetric {s : State} {kind : PairKind}
    (h : (s.engine.pairCand kind).firstAsymmetry s.engine.n = none) :
    exec (.plb kind) s = .next (s.answered { s.engine with plugboard := s.engine.pairCand kind } 0) := by
  rw [exec, execPlb, h]
  rfl

/-- PLB refuses what the symmetry check refuses (R134). -/
theorem exec_plb_of_asymmetry {s : State} {kind : PairKind} {v : Nat}
    (h : (s.engine.pairCand kind).firstAsymmetry s.engine.n = some v) :
    exec (.plb kind) s = .next (s.faulted .invariant v) := by
  rw [exec, execPlb, h]
  rfl

/-- RFL refuses what the symmetry check refuses (R196). -/
theorem exec_rflct_of_asymmetry {s : State} {kind : PairKind} {v : Nat}
    (h : (s.engine.pairCand kind).firstAsymmetry s.engine.n = some v) :
    exec (.rflct kind) s = .next (s.faulted .invariant v) := by
  rw [exec, execRfl, h]
  rfl

theorem PairSet.empty_symmetric (n : Nat) : (PairSet.empty n).firstAsymmetry n = none := by
  simp [firstAsymmetry_eq_none]

theorem PairSet.mirror_symmetric (n : Nat) : (PairSet.mirror n).firstAsymmetry n = none := by
  refine firstAsymmetry_eq_none.mpr fun v hv _ => ?_
  simp [mirror_entry hv]

theorem PairSet.flipped_symmetric (n : Nat) : (PairSet.flipped n).firstAsymmetry n = none := by
  refine firstAsymmetry_eq_none.mpr fun v hv _ => ?_
  obtain ⟨-, hpartner⟩ := flipped_entry hv
  obtain ⟨hback, hinv⟩ := flipped_entry (n := n) (v := n - 1 - v) (by omega)
  rw [hpartner]
  exact ⟨hback, hinv.trans (by omega)⟩

/-- With I-STG the staged pairing reads as the staging buffer does, written or not. -/
theorem Staging.Ok.pairing_entry {g : Staging} {n v : Nat} (hg : g.Ok n) (hv : v < n) :
    (g.pairing n).isPaired v = g.isWritten v ∧ (g.pairing n).partnerOf v = g.entry v := by
  obtain ⟨hpaired, hpartner⟩ := g.pairing_entry hv
  obtain ⟨-, hunwritten⟩ := hg.2 v hv
  refine ⟨hpaired, hpartner.trans (ite_eq_left_iff.mpr fun hw => ?_)⟩
  exact (hunwritten (Bool.eq_false_of_not_eq_true hw)).symm

/-- With I-STG the staged pairing pairs `v` back exactly when the staging buffer does. -/
theorem Staging.Ok.pairing_back_iff {g : Staging} {n v : Nat} (hg : g.Ok n) (hv : v < n) :
    ((g.pairing n).isPaired ((g.pairing n).partnerOf v) = true ∧
      (g.pairing n).partnerOf ((g.pairing n).partnerOf v) = v) ↔
    g.isWritten (g.entry v) = true ∧ g.entry (g.entry v) = v := by
  obtain ⟨-, hpartner⟩ := hg.pairing_entry hv
  obtain ⟨hentry, -⟩ := hg.2 v hv
  obtain ⟨hpaired', hpartner'⟩ := hg.pairing_entry hentry
  rw [hpartner, hpaired', hpartner']

/-- Settles O31: each candidate of R122 passes the symmetry check, and its entries are the ones R122 names. -/
theorem plbReplacesThePlugboard : Obligations.PlbReplacesThePlugboard := by
  intro s hs
  refine ⟨?emp, ?mir, ?flp, fun hsym => ?stg⟩
  case emp =>
    exact ⟨_, exec_plb_of_symmetric (PairSet.empty_symmetric _),
      fun v _ => ⟨PairSet.empty_isPaired _ v, PairSet.empty_partnerOf _ v⟩⟩
  case mir => exact ⟨_, exec_plb_of_symmetric (PairSet.mirror_symmetric _), fun _ => PairSet.mirror_entry⟩
  case flp => exact ⟨_, exec_plb_of_symmetric (PairSet.flipped_symmetric _), fun _ => PairSet.flipped_entry⟩
  case stg =>
    refine ⟨_, exec_plb_of_symmetric (PairSet.firstAsymmetry_eq_none.mpr fun v hv hp => ?_),
      fun _ => hs.staging_ok.pairing_entry⟩
    obtain ⟨hpaired, -⟩ := hs.staging_ok.pairing_entry hv
    exact (hs.staging_ok.pairing_back_iff hv).mpr (hsym v hv (hpaired.symm.trans hp))

/-- Settles O32: PLB and RFL share the symmetry check, which names the smallest staged entry not paired back. -/
theorem asymmetricStagingIsRefused : Obligations.AsymmetricStagingIsRefused := by
  intro s v hs hv ⟨hwritten, hback⟩ hbelow
  have hasym : (s.engine.pairCand .stg).firstAsymmetry s.engine.n = some v := by
    refine PairSet.firstAsymmetry_eq_some.mpr ⟨hv, ⟨?_, ?_⟩, fun u hu hp => ?_⟩
    · exact (hs.staging_ok.pairing_entry hv).1.trans hwritten
    · exact fun h => hback ((hs.staging_ok.pairing_back_iff hv).mp h)
    · obtain ⟨hpaired, -⟩ := hs.staging_ok.pairing_entry (hu.trans hv)
      exact (hs.staging_ok.pairing_back_iff (hu.trans hv)).mpr (hbelow u hu (hpaired.symm.trans hp))
  exact ⟨exec_plb_of_asymmetry hasym, exec_rflct_of_asymmetry hasym⟩

end Sys2Proof.Machine
end

section
/-! One rotor: encode and decode at the current position, advance and set the position (R150 to R158). -/

namespace Sys2Proof.Machine

/-! ### Encode and decode -/

theorem exec_ren {s : State} {k v : Nat} (hk : k < s.engine.nrot) (hv : v < s.engine.n) :
    exec (.ren k v) s =
      .next (s.answered s.engine (rotorEnc s.engine.n (s.engine.slot k) (s.engine.pos k) v)) :=
  (State.needSlot_of_lt hk).trans (State.needIndex_of_lt hv)

theorem exec_rde {s : State} {k v : Nat} (hk : k < s.engine.nrot) (hv : v < s.engine.n) :
    exec (.rde k v) s =
      .next (s.answered s.engine (rotorDec s.engine.n (s.engine.slot k) (s.engine.pos k) v)) :=
  (State.needSlot_of_lt hk).trans (State.needIndex_of_lt hv)

/-- Settles O33: both operand checks pass, and `rotorEnc` and `rotorDec` are the two table reads of R150 and R151. -/
theorem renAndRdeUseTheOffset : Obligations.RenAndRdeUseTheOffset :=
  fun _ _ _ hk hv => ⟨exec_ren hk hv, exec_rde hk hv⟩

/-- I-PERM of an installed slot. -/
theorem Engine.Inv.slot_wired {e : Engine} (h : e.Inv) {k : Nat} (hk : k < e.nrot) : (e.slot k).Wired e.n :=
  h.iPerm k hk

/-- Settles O34: by I-PERM the slot is wired and by I-POS its position is an index, so the two laws of R158 apply. -/
theorem rotorRoundTripAtAnyPosition : Obligations.RotorRoundTripAtAnyPosition := by
  intro s k v hs hk hv
  have hwired := hs.slot_wired hk
  have hpos := hs.pos_lt hk
  have henc := rotorEnc_lt (p := s.engine.pos k) hwired hv
  have hdec := rotorDec_lt (p := s.engine.pos k) (r := s.engine.slot k) hv
  refine ⟨⟨_, henc, exec_ren hk hv, ?_⟩, ⟨_, hdec, exec_rde hk hv, ?_⟩⟩
  · rw [exec_rde hk henc, rotorDec_rotorEnc hwired hpos hv]
  · rw [exec_ren hk hdec, rotorEnc_rotorDec hwired hpos hv]

/-! ### Advance and set -/

theorem exec_adv {s : State} {k : Nat} (hk : k < s.engine.nrot) :
    exec (.adv k) s =
      .next (s.answered (s.engine.setPos k (nextPosition s.engine.n (s.engine.pos k)))
        (nextPosition s.engine.n (s.engine.pos k))) :=
  State.needSlot_of_lt hk

/-- Writing the position of an installed slot changes that position and no other slot (R22). -/
theorem Engine.setPos_moves_one (e : Engine) {k : Nat} (p : Nat) (hk : k < e.nrot) :
    e.SameButPositions (e.setPos k p) ∧ (e.setPos k p).pos k = p ∧ ∀ j, j ≠ k → (e.setPos k p).slot j = e.slot j :=
  ⟨e.setPos_same k p, (e.setPos_pos p hk).trans (if_pos rfl), fun _ => e.setPos_slot_ne p⟩

/-- Settles O35: each command is one position write, and such a write moves one rotor. -/
theorem advAndSprMoveOneRotor : Obligations.AdvAndSprMoveOneRotor :=
  fun s _ p hk => ⟨⟨_, exec_adv hk, s.engine.setPos_moves_one _ hk⟩, ⟨_, exec_spr p hk, s.engine.setPos_moves_one _ hk⟩⟩

end Sys2Proof.Machine
end

section
/-! The stepper as an odometer: the positions read in base `N`, and stepping repeated (R175, R176, R178). -/

namespace Sys2Proof.Machine

/-! ### The number of a position vector -/

theorem odometerValue_lt {n : Nat} {ps : List Nat} (h : ∀ x ∈ ps, x < n) : odometerValue n ps < n ^ ps.length := by
  induction ps with
  | nil => exact Nat.one_pos
  | cons p ps ih =>
    obtain ⟨hp, hps⟩ := List.forall_mem_cons.mp h
    calc p + n * odometerValue n ps
        < n * (odometerValue n ps + 1) := by rw [Nat.mul_succ]; omega
      _ ≤ n * n ^ ps.length := Nat.mul_le_mul_left n (ih hps)
      _ = n ^ (p :: ps).length := (Nat.pow_succ' ..).symm

/-- Two vectors of one length with the same number are the same vector. -/
theorem odometerValue_injective {n : Nat} {ps qs : List Nat} (hps : ∀ x ∈ ps, x < n) (hqs : ∀ x ∈ qs, x < n)
    (hlen : ps.length = qs.length) (h : odometerValue n ps = odometerValue n qs) : ps = qs := by
  induction ps generalizing qs with
  | nil => exact (List.length_eq_zero_iff.mp hlen.symm).symm
  | cons p ps ih =>
    cases qs with
    | nil => cases hlen
    | cons q qs =>
      obtain ⟨hp, hps⟩ := List.forall_mem_cons.mp hps
      obtain ⟨hq, hqs⟩ := List.forall_mem_cons.mp hqs
      have hmod := congrArg (· % n) h
      have hdiv := congrArg (· / n) h
      have hn : 0 < n := by omega
      simp only [odometerValue, Nat.add_mul_mod_self_left, Nat.mod_eq_of_lt, hp, hq] at hmod
      simp only [odometerValue, Nat.add_mul_div_left _ _ hn, Nat.div_eq_of_lt, hp, hq, Nat.zero_add] at hdiv
      rw [hmod, ih hps hqs (Nat.succ.inj hlen) hdiv]

/-- R178: a step adds one. At `N-1` the first digit becomes 0 and the carry adds one to the rest of the number;
below `N-1` the digit grows by one and no overflow can happen. -/
theorem odometerValue_stackAdvance {n : Nat} {ps : List Nat} (h : ∀ x ∈ ps, x < n) :
    odometerValue n (stackAdvance n ps) = (odometerValue n ps + 1) % n ^ ps.length := by
  induction ps with
  | nil => simp [odometerValue]
  | cons p ps ih =>
    obtain ⟨hp, hps⟩ := List.forall_mem_cons.mp h
    rw [stackAdvance_cons]
    split
    · next hmax =>
      have hwrap : nextPosition n p = 0 := by rw [nextPosition, show p + 1 = n by omega, Nat.mod_self]
      calc nextPosition n p + n * odometerValue n (stackAdvance n ps)
          = n * (odometerValue n ps + 1) % (n * n ^ ps.length) := by
            rw [hwrap, ih hps, Nat.mul_mod_mul_left, Nat.zero_add]
        _ = (p + n * odometerValue n ps + 1) % n ^ (p :: ps).length := by
            rw [List.length_cons, Nat.pow_succ', show n * (odometerValue n ps + 1) = p + n * odometerValue n ps + 1 by
              rw [Nat.mul_succ]; omega]
    · next hmax =>
      have hnext : nextPosition n p = p + 1 := Nat.mod_eq_of_lt (by omega)
      have hlt := odometerValue_lt (n := n) (ps := (p + 1) :: ps) (List.forall_mem_cons.mpr ⟨by omega, hps⟩)
      calc nextPosition n p + n * odometerValue n ps
          = odometerValue n ((p + 1) :: ps) := by rw [hnext, odometerValue]
        _ = odometerValue n ((p + 1) :: ps) % n ^ (p :: ps).length := (Nat.mod_eq_of_lt hlt).symm
        _ = (p + n * odometerValue n ps + 1) % n ^ (p :: ps).length := by rw [odometerValue, Nat.add_right_comm]

/-! ### Repeated steps -/

@[simp] theorem iterate_stackAdvance_length (n m : Nat) (ps : List Nat) :
    ((stackAdvance n)^[m] ps).length = ps.length :=
  Function.Iterate.rec (fun qs : List Nat => qs.length = ps.length) rfl
    (fun qs h => (stackAdvance_length n qs).trans h) m

theorem iterate_stackAdvance_lt {n : Nat} {ps : List Nat} (hn : 1 ≤ n) (h : ∀ x ∈ ps, x < n) (m : Nat) :
    ∀ x ∈ (stackAdvance n)^[m] ps, x < n :=
  Function.Iterate.rec (fun qs : List Nat => ∀ x ∈ qs, x < n) h (fun _ => stackAdvance_lt hn) m

theorem odometerValue_iterate_stackAdvance {n : Nat} {ps : List Nat} (hn : 1 ≤ n) (h : ∀ x ∈ ps, x < n)
    (m : Nat) :
    odometerValue n ((stackAdvance n)^[m] ps) = (odometerValue n ps + m) % n ^ ps.length := by
  induction m with
  | zero => exact (Nat.mod_eq_of_lt (odometerValue_lt h)).symm
  | succ m ih =>
    rw [Function.iterate_succ_apply', odometerValue_stackAdvance (iterate_stackAdvance_lt hn h m), ih,
      iterate_stackAdvance_length, Nat.mod_add_mod, Nat.add_assoc]

/-- In one period of `N^NROT` steps the stepper stands at every vector exactly once. -/
theorem existsUnique_iterate_stackAdvance {n : Nat} {ps qs : List Nat} (hn : 1 ≤ n) (hps : ∀ x ∈ ps, x < n)
    (hqs : ∀ x ∈ qs, x < n) (hlen : qs.length = ps.length) :
    ∃! m, m < n ^ ps.length ∧ (stackAdvance n)^[m] ps = qs := by
  have hX := odometerValue_lt hps
  have hY := odometerValue_lt hqs
  rw [hlen] at hY
  have hiff (m : Nat) : (stackAdvance n)^[m] ps = qs ↔
      (odometerValue n ps + m) % n ^ ps.length = odometerValue n qs := by
    rw [← odometerValue_iterate_stackAdvance hn hps]
    exact ⟨congrArg _, odometerValue_injective (iterate_stackAdvance_lt hn hps m) hqs (by simp [hlen])⟩
  simp only [hiff]
  refine ⟨(odometerValue n qs + n ^ ps.length - odometerValue n ps) % n ^ ps.length, ⟨?_, ?_⟩, ?_⟩
  · exact Nat.mod_lt _ (Nat.pow_pos hn)
  · rw [Nat.add_comm]
    exact offset_cancel' hX hY
  · rintro m ⟨hm, heq⟩
    rw [← heq, Nat.add_comm (odometerValue n ps) m, offset_cancel hX hm]

/-- Each of the lowest `k` rotors moves as if the rotors above were not there: a carry only goes upward. -/
theorem take_stackAdvance (n k : Nat) (ps : List Nat) : (stackAdvance n ps).take k = stackAdvance n (ps.take k) := by
  induction ps generalizing k with
  | nil => simp
  | cons p ps ih =>
    cases k with
    | zero => rfl
    | succ k =>
      rw [stackAdvance_cons, List.take_succ_cons, List.take_succ_cons, stackAdvance_cons, apply_ite (List.take k), ih]

theorem take_iterate_stackAdvance (n k m : Nat) (ps : List Nat) :
    ((stackAdvance n)^[m] ps).take k = (stackAdvance n)^[m] (ps.take k) :=
  Function.Semiconj.iterate_right (f := List.take k) (take_stackAdvance n k) m ps

/-- In one period of the lowest `k` rotors, each at `N-1` once: exactly one step carries past them. -/
theorem existsUnique_carry {n : Nat} {as qs : List Nat} (hn : 1 ≤ n) (has : ∀ x ∈ as, x < n) :
    ∃! m, m < n ^ as.length ∧
      ((stackAdvance n)^[m] (as ++ qs)).take as.length = List.replicate as.length (n - 1) := by
  simp only [take_iterate_stackAdvance, List.take_left]
  refine existsUnique_iterate_stackAdvance hn has (fun x hx => ?_) List.length_replicate
  rw [List.eq_of_mem_replicate hx]
  omega

/-- Until rotor 0 reaches `N-1`, only rotor 0 moves. -/
theorem iterate_stackAdvance_of_no_carry {n p m : Nat} (ps : List Nat) (h : p + m < n) :
    (stackAdvance n)^[m] (p :: ps) = (p + m) :: ps := by
  induction m with
  | zero => rfl
  | succ m ih =>
    rw [Function.iterate_succ_apply', ih (by omega), stackAdvance_cons, if_neg (by omega), nextPosition,
      Nat.mod_eq_of_lt (by omega), Nat.add_assoc]

/-- One revolution of rotor 0: up to `N-1`, the step that carries, and from 0 up to where it stood. -/
theorem iterate_stackAdvance_revolution {n p : Nat} (hp : p < n) (ps : List Nat) :
    (stackAdvance n)^[n] (p :: ps) = p :: stackAdvance n ps := by
  have hcarry : stackAdvance n ((n - 1) :: ps) = 0 :: stackAdvance n ps := by
    rw [stackAdvance_cons, if_pos rfl, nextPosition, show n - 1 + 1 = n by omega, Nat.mod_self]
  calc (stackAdvance n)^[n] (p :: ps)
      = (stackAdvance n)^[p] (stackAdvance n ((stackAdvance n)^[n - 1 - p] (p :: ps))) := by
        rw [← Function.iterate_succ_apply' (stackAdvance n), ← Function.iterate_add_apply,
          show p + (n - 1 - p).succ = n by omega]
    _ = p :: stackAdvance n ps := by
        rw [iterate_stackAdvance_of_no_carry ps (by omega), show p + (n - 1 - p) = n - 1 by omega, hcarry,
          iterate_stackAdvance_of_no_carry _ (by omega), Nat.zero_add]

/-- One period of the lowest rotors `as` steps the rotors above them once. -/
theorem iterate_stackAdvance_append {n : Nat} {as : List Nat} (has : ∀ x ∈ as, x < n) (qs : List Nat) :
    (stackAdvance n)^[n ^ as.length] (as ++ qs) = as ++ stackAdvance n qs := by
  induction as with
  | nil => rfl
  | cons a as ih =>
    obtain ⟨ha, has⟩ := List.forall_mem_cons.mp has
    have hrev : Function.Semiconj (List.cons a) (stackAdvance n) (stackAdvance n)^[n] := fun ps =>
      (iterate_stackAdvance_revolution ha ps).symm
    calc (stackAdvance n)^[n ^ (a :: as).length] (a :: (as ++ qs))
        = ((stackAdvance n)^[n])^[n ^ as.length] (a :: (as ++ qs)) := by
          rw [← Function.iterate_mul, List.length_cons, Nat.pow_succ']
      _ = a :: (stackAdvance n)^[n ^ as.length] (as ++ qs) := (hrev.iterate_right _ _).symm
      _ = a :: as ++ stackAdvance n qs := by rw [ih has, List.cons_append]

/-- Settles O41: the three periods are those of the whole vector, of its first rotor and of its first two, and in
one period each vector is met once. -/
theorem odometerPeriods : Obligations.OdometerPeriods := by
  intro n p q ps qs hn hp hq hps hqs
  have hone : ∀ x ∈ [p], x < n := by simpa using hp
  have htwo : ∀ x ∈ [p, q], x < n := by simpa using ⟨hp, hq⟩
  have hreturn : (stackAdvance n)^[n ^ ps.length] ps = ps := by simpa using iterate_stackAdvance_append hps []
  have hminimal : ∀ m, 0 < m → m < n ^ ps.length → (stackAdvance n)^[m] ps ≠ ps := fun m hm hlt heq =>
    hm.ne' ((existsUnique_iterate_stackAdvance hn hps hps rfl).unique ⟨hlt, heq⟩ ⟨hm.trans hlt, rfl⟩)
  refine ⟨odometerValue_stackAdvance hps, hreturn, hminimal, ?_, ?_, ?_, ?_⟩
  · exact iterate_stackAdvance_revolution hp ps
  · simpa using existsUnique_carry (qs := ps) hn hone
  · simpa [pow_two] using iterate_stackAdvance_append htwo qs
  · simpa [pow_two] using existsUnique_carry (qs := qs) hn htwo

end Sys2Proof.Machine
end

section
/-! The rotor stack: stack encode and decode, the step, setting and zeroing all positions (R170 to R182, R202). -/

namespace Sys2Proof.Machine

/-! ### Stack encode and decode -/

theorem exec_sen {s : State} {v : Nat} (hv : v < s.engine.n) :
    exec (.sen v) s = .next (s.answered s.engine (stackEnc s.engine.n s.engine.rotors s.engine.positions v)) :=
  State.needIndex_of_lt hv

theorem exec_sde {s : State} {v : Nat} (hv : v < s.engine.n) :
    exec (.sde v) s = .next (s.answered s.engine (stackDec s.engine.n s.engine.rotors s.engine.positions v)) :=
  State.needIndex_of_lt hv

/-- Settles O37: the operand check passes, and the stack functions are a fold of `rotorEnc` and `rotorDec`. -/
theorem senAndSdeFoldInSlotOrder : Obligations.SenAndSdeFoldInSlotOrder :=
  ⟨fun _ _ hv => ⟨exec_sen hv, exec_sde hv⟩,
    fun n p v r rs ps => ⟨stackEnc_nil n v [], stackDec_nil n v [], stackEnc_cons n p v r rs ps,
      stackDec_cons n p v r rs ps⟩⟩

/-- R172, the first law: the stack is left in the opposite order, each rotor undone at its own position. -/
theorem stackDec_stackEnc {n : Nat} {rs : List Rotor} {ps : List Nat} {v : Nat} (hr : ∀ r ∈ rs, r.Wired n)
    (hp : ∀ p ∈ ps, p < n) (hv : v < n) : stackDec n rs ps (stackEnc n rs ps v) = v := by
  induction rs generalizing ps v with
  | nil => rfl
  | cons r rs ih =>
    cases ps with
    | nil => rfl
    | cons p ps =>
      obtain ⟨hr, hrs⟩ := List.forall_mem_cons.mp hr
      obtain ⟨hp, hps⟩ := List.forall_mem_cons.mp hp
      rw [stackEnc_cons, stackDec_cons, ih hrs hps (rotorEnc_lt hr hv), rotorDec_rotorEnc hr hp hv]

/-- R172, the second law. -/
theorem stackEnc_stackDec {n : Nat} {rs : List Rotor} {ps : List Nat} {v : Nat} (hr : ∀ r ∈ rs, r.Wired n)
    (hp : ∀ p ∈ ps, p < n) (hv : v < n) : stackEnc n rs ps (stackDec n rs ps v) = v := by
  induction rs generalizing ps with
  | nil => rfl
  | cons r rs ih =>
    cases ps with
    | nil => rfl
    | cons p ps =>
      obtain ⟨hr, hrs⟩ := List.forall_mem_cons.mp hr
      obtain ⟨hp, hps⟩ := List.forall_mem_cons.mp hp
      rw [stackDec_cons, stackEnc_cons, rotorEnc_rotorDec hr hp (stackDec_lt hv), ih hrs hps]

/-- Settles O38: by I-PERM the rotors are wired and by I-POS the positions are indices, so the laws of R172 apply. -/
theorem stackRoundTrip : Obligations.StackRoundTrip := by
  intro s v hs hv
  have hwired := Engine.rotors_wired hs.iPerm
  have hpos := Engine.positions_lt hs.iPos
  have henc := stackEnc_lt (ps := s.engine.positions) hwired hv
  have hdec := stackDec_lt (rs := s.engine.rotors) (ps := s.engine.positions) hv
  refine ⟨⟨_, henc, exec_sen hv, ?_⟩, ⟨_, hdec, exec_sde hv, ?_⟩, fun hnone => ?_⟩
  · rw [exec_sde henc, stackDec_stackEnc hwired hpos hv]
  · rw [exec_sen hdec, stackEnc_stackDec hwired hpos hv]
  · rw [exec_sen hv, exec_sde hv, List.length_eq_zero_iff.mp hnone, stackEnc_nil, stackDec_nil]
    exact ⟨rfl, rfl⟩

/-! ### The step -/

theorem exec_stp (s : State) : exec .stp s = .next (s.answered (s.engine.setPositions s.engine.stepped) 0) := rfl

/-- Settles O39: each position after the step is an entry of the stepped vector. -/
theorem stpIsTheOdometerStep : Obligations.StpIsTheOdometerStep := by
  intro s
  refine ⟨_, exec_stp s, s.engine.setPositions_same _ s.engine.stepped_length, fun j hj => ?_⟩
  rw [Engine.setPositions_pos _ _ s.engine.stepped_length hj, ← s.engine.readEntry_positions j]
  constructor
  · intro hadv
    refine readEntry_stackAdvance_of_carry (by simpa using hj) fun i hi => ?_
    rw [Engine.readEntry_positions, hadv i hi]
  · intro hadv
    obtain ⟨i, hi, hne⟩ : ∃ i, i < j ∧ s.engine.pos i ≠ s.engine.n - 1 := by
      simpa [Engine.advances] using hadv
    exact readEntry_stackAdvance_of_no_carry hi (by rwa [Engine.readEntry_positions])

/-- Settles O40: the positions after STP are the stepped vector, whose number is one more. -/
theorem stpAddsOneToTheOdometer : Obligations.StpAddsOneToTheOdometer := by
  intro s hs
  refine ⟨_, exec_stp s, ?_⟩
  rw [Engine.setPositions_positions _ _ s.engine.stepped_length, ← s.engine.positions_length]
  exact odometerValue_stackAdvance (Engine.positions_lt hs.iPos)

/-! ### The position list -/

/-- Settles O42: the position list has `RMAX` entries, so the write is read back and no other entry changes. -/
theorem plwWritesOneListElement : Obligations.PlwWritesOneListElement := by
  intro s k p hs hk
  refine ⟨_, exec_plw p hk, readEntry_set_self ?_, fun j hj => readEntry_set_ne _ p hj⟩
  rwa [hs.posList_sized]

theorem exec_sps_of_ne {s : State} {len : Nat} (h : len ≠ s.engine.nrot) :
    exec (.sps len) s = .next (s.faulted .sizeMismatch s.engine.nrot) :=
  State.needLength_of_ne h

/-- Settles O43: with the right length the positions become the listed ones, each reduced modulo `N`. -/
theorem spsAppliesTheListOfTheRightLength : Obligations.SpsAppliesTheListOfTheRightLength := by
  intro s len
  refine ⟨?_, exec_sps_of_ne⟩
  rintro rfl
  have hlen := s.engine.listedPositions_length
  refine ⟨_, exec_sps s, s.engine.setPositions_same _ hlen, fun k hk => ?_⟩
  rw [Engine.setPositions_pos _ _ hlen hk]
  exact readEntry_map_range _ hk

/-! ### Zeroing the positions -/

theorem exec_rsp (s : State) : exec .rsp s = .next (s.answered s.engine.zeroPositions 0) := rfl

theorem exec_rst (s : State) : exec .rst s = .next (s.answered s.engine.zeroPositions 0) := rfl

/-- Settles O44: both commands zero the positions. -/
theorem rspAndRstZeroThePositions : Obligations.RspAndRstZeroThePositions :=
  fun s => ⟨_, exec_rsp s, exec_rst s, s.engine.zeroPositions_same, fun _ => s.engine.zeroPositions_pos⟩

end Sys2Proof.Machine
end

section
/-! Construction of the machine: NEW, INF, POS, ROT and RFL (R179, R190 to R196). -/

namespace Sys2Proof.Machine

/-! ### The reset state and the registers -/

theorem exec_new (s : State) : exec .new s = .next (s.answered (Engine.reset s.engine.inst) 0) := rfl

/-- Settles O45: NEW writes the reset state and does not look at the rest of the engine. -/
theorem newGivesTheResetState : Obligations.NewGivesTheResetState := exec_new

theorem exec_inf (sel : InfSel) (s : State) : exec (.inf sel) s = .next (s.answered s.engine (s.engine.info sel)) := rfl

theorem exec_pos {s : State} {k : Nat} (hk : k < s.engine.nrot) :
    exec (.pos k) s = .next (s.answered s.engine (s.engine.pos k)) :=
  State.needSlot_of_lt hk

/-- Settles O46: INF has no operand to check, and the slot check of POS passes. -/
theorem infAndPosReadTheRegisters : Obligations.InfAndPosReadTheRegisters :=
  fun s => ⟨exec_inf .n s, exec_inf .nrot s, exec_inf .rmax s, fun _ => exec_pos⟩

/-! ### A rotor on top of the stack -/

/-- ROT with a free slot installs what the candidate check accepts (R194). -/
theorem exec_rot_of_ok {s : State} {kind : PermKind} {c : List Nat} (hfree : s.engine.nrot ≠ s.engine.rmax)
    (h : s.engine.permCand kind = .ok c) :
    exec (.rot kind) s = .next (s.answered (s.engine.installRotor c) s.engine.nrot) := by
  rw [exec, execRot, if_neg hfree, h]
  rfl

/-- A permutation table `c` with the entries `f` is installed as the wiring `f`, and its derived inverse undoes it. -/
theorem Engine.appended_installRotor {e : Engine} {c : List Nat} {f : Nat → Nat} (hc : IsPermTable e.n c)
    (hf : ∀ i, i < e.n → readEntry c i = f i) : e.Appended (e.installRotor c) f := by
  obtain ⟨-, hlt, hinj⟩ := hc
  obtain ⟨-, hinv⟩ := inverseTable_spec e.n c hlt hinj
  refine ⟨e.installRotor_nrot c, fun _ => e.installRotor_slot_lt c, ?_, fun i hi => ?_, rfl, rfl, rfl, rfl, rfl⟩
  · rw [Engine.pos, e.installRotor_slot_top]
  · rw [Engine.fwd, Engine.inv, e.installRotor_slot_top, ← hf i hi]
    exact ⟨rfl, hinv i hi⟩

/-- In a safe state every candidate that ROT accepts is a permutation table (R104), so ROT appends it. -/
theorem exec_rot_appends {s : State} {kind : PermKind} {c : List Nat} {f : Nat → Nat} (hs : s.Safe)
    (hfree : s.engine.nrot < s.engine.rmax) (h : s.engine.permCand kind = .ok c)
    (hf : ∀ i, i < s.engine.n → readEntry c i = f i) :
    ∃ e : Engine, exec (.rot kind) s = .next (s.answered e s.engine.nrot) ∧ s.engine.Appended e f :=
  ⟨_, exec_rot_of_ok hfree.ne h,
    Engine.appended_installRotor (Engine.permCand_spec (fun i hi => (hs.iStg i hi).1) h) hf⟩

/-- A staging buffer with no gap and no repeat is taken as the table of its entries (R104). -/
theorem Staging.permutation_of_no_gap_no_repeat {g : Staging} {n : Nat} (hgap : g.firstGap n = none)
    (hrepeat : g.firstRepeat n = none) : g.permutation n = .ok ((List.range n).map g.entry) := by
  rw [permutation, hgap, hrepeat]

/-- Settles O47: each kind has a candidate that passes the checks, with the entries R104 names. -/
theorem rotAppendsARotor : Obligations.RotAppendsARotor := by
  intro s hs hfree
  refine ⟨?asc, ?dsc, fun hwritten hdistinct => ?stg⟩
  case asc => exact exec_rot_appends hs hfree rfl fun _ => readEntry_range
  case dsc => exact exec_rot_appends hs hfree rfl fun _ => readEntry_map_range _
  case stg =>
    have hgap := Staging.firstGap_eq_none.mpr hwritten
    have hrepeat := Staging.firstRepeat_eq_none.mpr fun i hi j => hdistinct i j hi
    exact exec_rot_appends hs hfree (Staging.permutation_of_no_gap_no_repeat hgap hrepeat)
      fun _ => readEntry_map_range _

/-! ### The reflector -/

/-- RFL installs a candidate that passes both checks (R196). -/
theorem exec_rflct_of_reflecting {s : State} {kind : PairKind}
    (hsym : (s.engine.pairCand kind).firstAsymmetry s.engine.n = none)
    (hrefl : (s.engine.pairCand kind).firstNotReflecting s.engine.n = none) :
    exec (.rflct kind) s = .next (s.answered { s.engine with reflector := s.engine.pairCand kind } 0) := by
  simp only [exec, execRfl, hsym, hrefl]
  rfl

/-- RFL refuses a symmetric candidate that the reflector check refuses (R196). -/
theorem exec_rflct_of_not_reflecting {s : State} {kind : PairKind} {v : Nat}
    (hsym : (s.engine.pairCand kind).firstAsymmetry s.engine.n = none)
    (hrefl : (s.engine.pairCand kind).firstNotReflecting s.engine.n = some v) :
    exec (.rflct kind) s = .next (s.faulted .invariant v) := by
  simp only [exec, execRfl, hsym, hrefl]
  rfl

/-- With I-STG the staged pairing is symmetric when every written entry is written back. -/
theorem Staging.Ok.pairing_symmetric {g : Staging} {n : Nat} (hg : g.Ok n)
    (h : ∀ u, u < n → g.isWritten u = true → g.isWritten (g.entry u) = true ∧ g.entry (g.entry u) = u) :
    (g.pairing n).firstAsymmetry n = none := by
  refine PairSet.firstAsymmetry_eq_none.mpr fun u hu hp => ?_
  obtain ⟨hpaired, -⟩ := hg.pairing_entry hu
  exact (hg.pairing_back_iff hu).mpr (h u hu (hpaired.symm.trans hp))

/-- Only the middle index of an odd `n` is paired with itself by FLP. -/
theorem PairSet.flipped_reflecting {n : Nat} (hn : n % 2 = 0) : (PairSet.flipped n).firstNotReflecting n = none := by
  refine firstNotReflecting_eq_none.mpr fun v hv => ?_
  obtain ⟨hpaired, hpartner⟩ := flipped_entry hv
  exact ⟨hpaired, by omega⟩

theorem PairSet.flipped_not_reflecting {n : Nat} (hn : n % 2 = 1) :
    (PairSet.flipped n).firstNotReflecting n = some ((n - 1) / 2) := by
  refine firstNotReflecting_eq_some.mpr ⟨by omega, .inr ?_, fun u hu => ?_⟩
  · obtain ⟨-, hpartner⟩ := flipped_entry (n := n) (v := (n - 1) / 2) (by omega)
    omega
  · obtain ⟨hpaired, hpartner⟩ := flipped_entry (n := n) (v := u) (by omega)
    exact ⟨hpaired, by omega⟩

theorem PairSet.empty_not_reflecting {n : Nat} (hn : 0 < n) : (PairSet.empty n).firstNotReflecting n = some 0 :=
  firstNotReflecting_eq_some.mpr ⟨hn, .inl (empty_isPaired n 0), fun _ hu => absurd hu (Nat.not_lt_zero _)⟩

theorem PairSet.mirror_not_reflecting {n : Nat} (hn : 0 < n) : (PairSet.mirror n).firstNotReflecting n = some 0 :=
  firstNotReflecting_eq_some.mpr ⟨hn, .inr (mirror_entry hn).2, fun _ hu => absurd hu (Nat.not_lt_zero _)⟩

/-- Settles O49: both candidates pass the symmetry check and the reflector check. -/
theorem rflInstallsALegalReflector : Obligations.RflInstallsALegalReflector := by
  intro s hs
  have hg := hs.staging_ok
  refine ⟨fun heven => ?flp, fun hstg => ?stg⟩
  case flp =>
    exact ⟨_, exec_rflct_of_reflecting (PairSet.flipped_symmetric _) (PairSet.flipped_reflecting heven),
      fun _ => PairSet.flipped_entry⟩
  case stg =>
    have hread : ∀ v, v < s.engine.n → (s.engine.pairCand .stg).isPaired v = true ∧
        (s.engine.pairCand .stg).partnerOf v = s.engine.staging.entry v := by
      intro v hv
      obtain ⟨hpaired, hpartner⟩ := hg.pairing_entry hv
      exact ⟨hpaired.trans (hstg v hv).1, hpartner⟩
    refine ⟨_, exec_rflct_of_reflecting (hg.pairing_symmetric fun u hu _ => ?_)
      (PairSet.firstNotReflecting_eq_none.mpr fun v hv => ?_), hread⟩
    · obtain ⟨-, -, hback⟩ := hstg u hu
      exact ⟨(hstg _ (hg.2 u hu).1).1, hback⟩
    · obtain ⟨hpaired, hpartner⟩ := hread v hv
      obtain ⟨-, hne, -⟩ := hstg v hv
      exact ⟨hpaired, hpartner.trans_ne hne⟩

/-- Settles O50: every candidate of these passes the symmetry check, so the reflector check names the index. -/
theorem rflRefusesAnIllegalReflector : Obligations.RflRefusesAnIllegalReflector := by
  intro s hs
  have hn := hs.one_le_n
  refine ⟨?emp, ?mir, fun hodd => ?flp, fun v hv hsym hbad hbelow => ?stg⟩
  case emp => exact exec_rflct_of_not_reflecting (PairSet.empty_symmetric _) (PairSet.empty_not_reflecting hn)
  case mir => exact exec_rflct_of_not_reflecting (PairSet.mirror_symmetric _) (PairSet.mirror_not_reflecting hn)
  case flp => exact exec_rflct_of_not_reflecting (PairSet.flipped_symmetric _) (PairSet.flipped_not_reflecting hodd)
  case stg =>
    have hg := hs.staging_ok
    refine exec_rflct_of_not_reflecting (hg.pairing_symmetric hsym)
      (PairSet.firstNotReflecting_eq_some.mpr ⟨hv, ?_, fun u hu => ?_⟩)
    · obtain ⟨hpaired, hpartner⟩ := hg.pairing_entry hv
      rwa [Engine.pairCand, hpaired, hpartner]
    · obtain ⟨hpaired, hpartner⟩ := hg.pairing_entry (hu.trans hv)
      rw [Engine.pairCand, hpaired, hpartner]
      exact hbelow u hu

end Sys2Proof.Machine
end

section
/-! The encode path: plugboard, stack, reflector, and back, at the stepped positions (R197 to R205). -/

namespace Sys2Proof.Machine

/-! ### The path at given positions -/

theorem Engine.Inv.toReflector_lt {e : Engine} (h : e.Inv) (p : List Nat) {v : Nat} (hv : v < e.n) :
    e.toReflector p v < e.n :=
  stackEnc_lt (Engine.rotors_wired h.iPerm) (h.plugEnc_involution hv).1

theorem Engine.Inv.fromReflector_lt {e : Engine} (h : e.Inv) (p : List Nat) {x : Nat} (hx : x < e.n) :
    e.fromReflector p x < e.n :=
  (h.plugEnc_involution (stackDec_lt hx)).1

/-- The way back undoes the way in: the plugboard is an involution and the stack is undone (R125, R172). -/
theorem Engine.Inv.fromReflector_toReflector {e : Engine} (h : e.Inv) {p : List Nat} (hp : ∀ q ∈ p, q < e.n) {v : Nat}
    (hv : v < e.n) : e.fromReflector p (e.toReflector p v) = v := by
  obtain ⟨hlt, hinv⟩ := h.plugEnc_involution hv
  rw [fromReflector, toReflector, stackDec_stackEnc (Engine.rotors_wired h.iPerm) hp hlt, hinv]

/-- The way in undoes the way back (R125, R172). -/
theorem Engine.Inv.toReflector_fromReflector {e : Engine} (h : e.Inv) {p : List Nat} (hp : ∀ q ∈ p, q < e.n) {x : Nat}
    (hx : x < e.n) : e.toReflector p (e.fromReflector p x) = x := by
  obtain ⟨-, hinv⟩ := h.plugEnc_involution (v := stackDec e.n e.rotors p x) (stackDec_lt hx)
  rw [toReflector, fromReflector, hinv, stackEnc_stackDec (Engine.rotors_wired h.iPerm) hp hx]

/-- R203, R204: between the way in and the way back, which undo each other, stands the reflector, an involution
without fixed points. -/
theorem Engine.Inv.machineEnc_reciprocal {e : Engine} (h : e.Inv) (hne : ¬ e.reflector.Empty e.n) {p : List Nat}
    (hp : ∀ q ∈ p, q < e.n) {v : Nat} (hv : v < e.n) :
    e.machineEnc p v < e.n ∧ e.machineEnc p v ≠ v ∧ e.machineEnc p (e.machineEnc p v) = v := by
  obtain ⟨-, hlt, hfix, hinv⟩ := h.reflector_total hne _ (h.toReflector_lt p hv)
  have hback : e.toReflector p (e.machineEnc p v) = e.reflector.partnerOf (e.toReflector p v) :=
    h.toReflector_fromReflector hp hlt
  refine ⟨h.fromReflector_lt p hlt, fun heq => hfix ?_, ?_⟩
  · rw [← hback, heq]
  · rw [machineEnc, hback, hinv, h.fromReflector_toReflector hp hv]

/-- Settles O55. -/
theorem thePathIsReciprocalAtFixedPositions : Obligations.ThePathIsReciprocalAtFixedPositions :=
  fun _ _ _ h hne _ hp hv => h.machineEnc_reciprocal hne hp hv

/-! ### ENC and DEC of one index -/

theorem exec_dec_eq_exec_enc (s : State) (v : Nat) : exec (.dec v) s = exec (.enc v) s := rfl

/-- Settles O53: both commands are the shared pseudocode of R200. -/
theorem decIsEnc : Obligations.DecIsEnc := exec_dec_eq_exec_enc

theorem exec_enc_of_paired {s : State} {v : Nat} (hv : v < s.engine.n)
    (hp : s.engine.reflector.isPaired (s.engine.toReflector s.engine.stepped v) = true) :
    exec (.enc v) s =
      .next (s.answered (s.engine.setPositions s.engine.stepped) (s.engine.machineEnc s.engine.stepped v)) :=
  (State.needIndex_of_lt hv).trans (State.needReflected_of_paired hp)

theorem exec_enc_of_unpaired {s : State} {v : Nat} (hv : v < s.engine.n)
    (hp : s.engine.reflector.isPaired (s.engine.toReflector s.engine.stepped v) = false) :
    exec (.enc v) s = .next (s.faulted .notFound (s.engine.toReflector s.engine.stepped v)) :=
  (State.needIndex_of_lt hv).trans (State.needReflected_of_not hp)

/-- The positions after a step, as a vector. -/
theorem Engine.positions_of_stepped (e : Engine) : (e.setPositions e.stepped).positions = e.stepped :=
  e.setPositions_positions _ e.stepped_length

theorem Engine.Inv.stepped_lt {e : Engine} (h : e.Inv) : ∀ p ∈ e.stepped, p < e.n :=
  stackAdvance_lt h.one_le_n (Engine.positions_lt h.iPos)

/-- With a reflector installed every index has a partner there, so ENC succeeds (I-RF, R200). -/
theorem exec_enc_of_reflector {s : State} {v : Nat} (hs : s.Safe) (hne : ¬ s.engine.reflector.Empty s.engine.n)
    (hv : v < s.engine.n) :
    exec (.enc v) s =
      .next (s.answered (s.engine.setPositions s.engine.stepped) (s.engine.machineEnc s.engine.stepped v)) :=
  exec_enc_of_paired hv (hs.reflector_total hne _ (hs.toReflector_lt _ hv)).1

/-- Settles O52: ENC and STP write the same stepped positions, and each value on the path is an index. -/
theorem encAndDecStepThenRunThePath : Obligations.EncAndDecStepThenRunThePath := by
  intro s v hs hne hv
  have henc := exec_enc_of_reflector hs hne hv
  have h1 := hs.toReflector_lt s.engine.stepped hv
  obtain ⟨-, h2, -⟩ := hs.reflector_total hne _ h1
  obtain ⟨h4, hfix, -⟩ := hs.machineEnc_reciprocal hne hs.stepped_lt hv
  refine ⟨s.engine.setPositions s.engine.stepped, s.engine.plugEnc v, s.engine.toReflector s.engine.stepped v, _, _,
    s.engine.machineEnc s.engine.stepped v, henc, (exec_dec_eq_exec_enc s v).trans henc, exec_stp s,
    s.engine.setPositions_same _ s.engine.stepped_length, rfl, ?_, rfl, rfl, ?_,
    (hs.plugEnc_involution hv).1, h1, h2, stackDec_lt h2, h4, hfix⟩
  · rw [s.engine.positions_of_stepped]
    rfl
  · rw [s.engine.positions_of_stepped]
    rfl

/-- Settles O54: the empty reflector has no partner for the index presented to it, whatever that index is. -/
theorem encWithoutReflectorFaultsAndDoesNotStep : Obligations.EncWithoutReflectorFaultsAndDoesNotStep := by
  intro s t v hempty hs hv hstp
  cases (exec_stp s).symm.trans hstp
  have hlt := hs.toReflector_lt s.engine.stepped hv
  have henc := exec_enc_of_unpaired hv (hempty _ hlt).1
  refine ⟨_, hlt, ?_, henc, (exec_dec_eq_exec_enc s v).trans henc⟩
  rw [State.answered_engine, s.engine.positions_of_stepped]
  rfl

/-! ### Engines that differ in positions, or in buffers -/

theorem Engine.SameButPositions.refl (e : Engine) : e.SameButPositions e :=
  ⟨rfl, rfl, fun _ => ⟨rfl, rfl⟩, rfl, rfl, rfl, rfl⟩

theorem Engine.SameButPositions.trans {e e' e'' : Engine} (h : e.SameButPositions e') (h' : e'.SameButPositions e'') :
    e.SameButPositions e'' := by
  obtain ⟨hinst, hnrot, hwiring, hpb, hrf, hstg, hpl⟩ := h
  obtain ⟨hinst', hnrot', hwiring', hpb', hrf', hstg', hpl'⟩ := h'
  exact ⟨hinst'.trans hinst, hnrot'.trans hnrot,
    fun k => ⟨(hwiring' k).1.trans (hwiring k).1, (hwiring' k).2.trans (hwiring k).2⟩, hpb'.trans hpb, hrf'.trans hrf,
    hstg'.trans hstg, hpl'.trans hpl⟩

/-- An engine that differs in nothing but positions, and not in them either, is the same engine. -/
theorem Engine.SameButPositions.eq_of_pos {e e' : Engine} (h : e.SameButPositions e')
    (hpos : ∀ k, k < e.nrot → e'.pos k = e.pos k) : e' = e := by
  have hrotors : e'.rotors = e.rotors := by
    obtain ⟨-, hnrot, hwiring, -⟩ := h
    refine List.ext_getElem hnrot fun k hk' hk => ?_
    rw [← e'.slot_eq_getElem hk', ← e.slot_eq_getElem hk]
    obtain ⟨hfwd, hinv⟩ := hwiring k
    exact (Rotor.mk.injEq ..).mpr ⟨hfwd, hinv, hpos k hk⟩
  rw [h.eq_with_rotors, hrotors]

/-- The engines agree in all that ENC and DEC read: everything but the staging buffer and the position list. -/
def Engine.SameButBuffers (e e' : Engine) : Prop := e' = { e with staging := e'.staging, posList := e'.posList }

/-- ENC reads neither buffer: the step and the path are the same in both engines (R197, R198). -/
theorem Engine.SameButBuffers.path {e e' : Engine} (h : e.SameButBuffers e') :
    e'.n = e.n ∧ e'.reflector = e.reflector ∧ e'.stepped = e.stepped ∧ e'.toReflector = e.toReflector ∧
    e'.machineEnc = e.machineEnc := by
  rw [h]
  exact ⟨rfl, rfl, rfl, rfl, rfl⟩

theorem Engine.SameButBuffers.setPositions {e e' : Engine} (h : e.SameButBuffers e') (q : List Nat) :
    (e.setPositions q).SameButBuffers (e'.setPositions q) := by
  rw [h]
  rfl

/-! ### Messages -/

/-- The step that ENC keeps leaves a safe state safe (I-POS). -/
theorem Engine.Inv.setPositions_stepped {e : Engine} (h : e.Inv) : (e.setPositions e.stepped).Inv :=
  h.of_sameButPositions (e.setPositions_same _ e.stepped_length)
    (Engine.setPositions_iPos e.stepped_length h.stepped_lt)

/-- The answer of ENC, entered where that ENC was entered, gives the index back and makes the same step (R203). -/
theorem exec_enc_of_machineEnc {s u : State} {v : Nat} (hs : s.Safe) (hne : ¬ s.engine.reflector.Empty s.engine.n)
    (hv : v < s.engine.n) (hu : s.engine.SameButBuffers u.engine) :
    exec (.enc (s.engine.machineEnc s.engine.stepped v)) u =
      .next (u.answered (u.engine.setPositions s.engine.stepped) v) := by
  obtain ⟨hlt, -, hinv⟩ := hs.machineEnc_reciprocal hne hs.stepped_lt hv
  obtain ⟨hpaired, -⟩ := hs.reflector_total hne _ (hs.toReflector_lt s.engine.stepped hlt)
  obtain ⟨hn, hrf, hstepped, hto, henc⟩ := hu.path
  rw [exec_enc_of_paired (hn ▸ hlt) (by rwa [hrf, hstepped, hto]), hstepped, henc, hinv]

/-- R205: a message is answered index by index, and the answers, entered from the engine the message was entered
from, are answered with the message: both runs step alike, so each answer meets the positions it was made at. -/
theorem issueAll_enc_reciprocal {s : State} {m : List Nat} (hs : s.Safe)
    (hne : ¬ s.engine.reflector.Empty s.engine.n) (hm : ∀ x ∈ m, x < s.engine.n) :
    ∃ (t : State) (c : List Nat), issueAll (m.map .enc) s = .next t ∧ c.length = m.length ∧ (∀ x ∈ c, x < s.engine.n) ∧
      t.port.responses = (c.map successResponse).reverse ++ s.port.responses ∧
      s.engine.SameButPositions t.engine ∧
      ∀ u : State, s.engine.SameButBuffers u.engine → ∃ u', issueAll (c.map .enc) u = .next u' ∧
        u'.port.responses = (m.map successResponse).reverse ++ u.port.responses := by
  induction m generalizing s with
  | nil => exact ⟨s, [], rfl, rfl, nofun, rfl, .refl _, fun u _ => ⟨u, rfl, rfl⟩⟩
  | cons v m ih =>
    obtain ⟨hv, hm⟩ := List.forall_mem_cons.mp hm
    obtain ⟨hlt, -, -⟩ := hs.machineEnc_reciprocal hne hs.stepped_lt hv
    obtain ⟨t, c, hrun, hlen, hc, hresp, hsame, hback⟩ :=
      ih (s := s.answered (s.engine.setPositions s.engine.stepped) (s.engine.machineEnc s.engine.stepped v))
        hs.setPositions_stepped hne hm
    refine ⟨t, s.engine.machineEnc s.engine.stepped v :: c, ?_, congrArg Nat.succ hlen,
      List.forall_mem_cons.mpr ⟨hlt, hc⟩, ?_, (s.engine.setPositions_same _ s.engine.stepped_length).trans hsame,
      fun u hu => ?_⟩
    · exact (issueAll_cons_of_next (exec_enc_of_reflector hs hne hv)).trans hrun
    · simp [hresp]
    · obtain ⟨u', hrun', hresp'⟩ := hback (u.answered (u.engine.setPositions s.engine.stepped) v) (hu.setPositions _)
      refine ⟨u', (issueAll_cons_of_next (exec_enc_of_machineEnc hs hne hv hu)).trans hrun', ?_⟩
      simp [hresp']

theorem issueAll_dec_eq_issueAll_enc (c : List Nat) (s : State) :
    issueAll (c.map .dec) s = issueAll (c.map .enc) s := by
  induction c generalizing s with
  | nil => rfl
  | cons v c ih =>
    simp only [List.map_cons, issueAll, exec_dec_eq_exec_enc, ih]

/-- Settles O56: DEC answers as ENC does; the message moves nothing but positions, so RST undoes it when they were
all zero. -/
theorem messagesAreReciprocal : Obligations.MessagesAreReciprocal := by
  intro s m hs hne hm
  obtain ⟨t, c, hrun, hlen, hc, hresp, hsame, hback⟩ := issueAll_enc_reciprocal hs hne hm
  refine ⟨t, c, hrun, hlen, hc, hresp, fun u hu => ⟨hback u hu, ?_⟩, fun hzero => ⟨_, exec_rst t, ?_⟩⟩
  · rw [issueAll_dec_eq_issueAll_enc]
    exact hback u hu
  · have ⟨_, hnrot, _⟩ := hsame
    refine (hsame.trans t.engine.zeroPositions_same).eq_of_pos fun k hk => ?_
    rw [Engine.zeroPositions_pos _ (hnrot.symm ▸ hk), hzero k hk]

end Sys2Proof.Machine
end

section
/-! The faults: what a faulting command leaves, which faults a command raises, and the operand checks that raise them
(R220 to R235). -/

namespace Sys2Proof.Machine

/-! ### Over all commands -/

/-- A command answered with a fault response writes no engine state (R223): a success is not answered with one. -/
theorem exec_engine_of_fault {i : Instr} {s t : State} {r : Word} (h : exec i s = .next t)
    (hr : t.port.responses = r :: s.port.responses) (hf : responseFault r = true) : t.engine = s.engine := by
  rcases exec_cases h with ⟨f, info, -, rfl⟩ | ⟨e', d, -, rfl⟩
  · rfl
  · obtain ⟨rfl, -⟩ := List.cons.inj hr
    rw [successResponse_fault] at hf
    contradiction

/-- Settles O17: the step is the command's, or the decoder's fault. -/
theorem faultingCommandsLeaveNoTrace : Obligations.FaultingCommandsLeaveNoTrace := by
  intro s t w r rest hp h hr hf
  obtain ⟨hv, -⟩ := step_cases h
  cases hd : decode w with
  | ok i =>
    rw [step_of_decode_ok hv hp hd] at h
    have hengine := exec_engine_of_fault h hr hf
    exact ⟨hengine, exec_pending h⟩
  | error _ =>
    rw [step_of_decode_error hv hp hd] at h
    cases h
    exact ⟨rfl, rfl⟩

/-- Settles O18: the response is the one of a fault of the command's row, or of its success. -/
theorem commandsRaiseOnlyTheirRowOfTheFaultMatrix : Obligations.CommandsRaiseOnlyTheirRowOfTheFaultMatrix := by
  intro i s t h
  rcases exec_cases h with ⟨f, info, hf, rfl⟩ | ⟨e', d, -, rfl⟩
  · exact ⟨_, rfl, .inr ⟨faultResponse_fault f info, f, hf, faultResponse_code f info⟩⟩
  · exact ⟨_, rfl, .inl ⟨successResponse_fault d, successResponse_code d⟩⟩

/-! ### Operands out of range -/

section
variable {s : State} {v : Nat} {next : Host.Outcome State Fault Refusal} (hv : s.engine.n ≤ v)
include hv

/-- An index checked after another one: `B` before `C` (R231). -/
theorem State.needIndex_needIndex_of_ge {w : Nat} (hw : w < s.engine.n) :
    s.needIndex w (s.needIndex v next) = .next (s.faulted .indexOutOfRange v) := by
  rw [needIndex_of_lt hw, needIndex_of_ge hv]

/-- An index checked after a slot: `A` before `C` (R231). -/
theorem State.needSlot_needIndex_of_ge {k : Nat} (hk : k < s.engine.nrot) :
    s.needSlot k (s.needIndex v next) = .next (s.faulted .indexOutOfRange v) := by
  rw [needSlot_of_lt hk, needIndex_of_ge hv]

end

/-- Settles O20: each command checks the index first, after a first index (STG, CON), or after a slot. -/
theorem indexOperandsOutOfRangeFault : Obligations.IndexOperandsOutOfRangeFault := by
  intro s v w k t hv
  have hfirst (next) : s.needIndex v next = .next (s.faulted .indexOutOfRange v) := State.needIndex_of_ge hv
  refine ⟨hfirst _, ?stgSecond, hfirst _, ?conSecond, hfirst _, hfirst _, hfirst _, hfirst _, hfirst _,
    hfirst _, hfirst _, hfirst _, fun hk => ?afterSlot⟩
  case stgSecond => exact State.needIndex_needIndex_of_ge hv
  case conSecond => exact State.needIndex_needIndex_of_ge hv
  case afterSlot =>
    have hsecond (next) := State.needSlot_needIndex_of_ge (next := next) hv hk
    exact ⟨hsecond _, hsecond _, hsecond _, hsecond _⟩

/-! ### Slots that are not usable -/

/-- ROT with every slot installed looks at no candidate (R194, R229). -/
theorem exec_rot_of_full {s : State} (kind : PermKind) (hfull : s.engine.nrot = s.engine.rmax) :
    exec (.rot kind) s = .next (s.faulted .slot s.engine.nrot) :=
  if_pos hfull

/-- Settles O21: the slot is what each command checks first. -/
theorem unusableSlotsFault : Obligations.UnusableSlotsFault := by
  intro s k v kind
  refine ⟨fun hk => ?installed, State.needListSlot_of_ge, exec_rot_of_full kind⟩
  case installed =>
    have hfirst (next) : s.needSlot k next = .next (s.faulted .slot k) := State.needSlot_of_ge hk
    exact ⟨hfirst _, hfirst _, hfirst _, hfirst _, hfirst _, hfirst _, hfirst _⟩

end Sys2Proof.Machine
end

section
/-! The reset event (R250, R251). -/

namespace Sys2Proof.Machine

/-- Both forms of the reset event make one and the same step: the word of an abandoned command is not looked at. -/
theorem step_of_reset_event {s : State} {w : Word} {rest : List HostEvent} (hv : s.engine.inst.Valid)
    (hp : s.port.pending = .reset :: rest ∨ s.port.pending = .resetDuring w :: rest) :
    step s = .next (s.withPending rest).hardwareReset := by
  rcases hp with hp | hp
  · rw [step, if_pos hv, hp]
  · rw [step, if_pos hv, hp]

/-- Settles O9: the hardware reset writes the whole engine and leaves the port, from which the event has been taken. -/
theorem resetEventGivesTheResetState : Obligations.ResetEventGivesTheResetState := by
  intro s w rest hv hp
  refine ⟨_, step_of_reset_event hv hp, ?engine, ?pending, ?responses⟩
  case engine => rw [State.hardwareReset_engine, State.withPending_engine]
  case pending => rw [State.hardwareReset_port, State.withPending_pending]
  case responses => rw [State.hardwareReset_port, State.withPending_responses]

end Sys2Proof.Machine
end
